-- ==== Sys2Proof/Word.lean ====
section
/-! DEFINITION. The word types of HKB: bytes and bus words (00_scope R12), block offsets and bus descriptors
(30_encoding R101). -/

namespace Sys2Proof

/-- An unsigned 8-bit value (R12). -/
abbrev Byte := BitVec 8

/-- An unsigned 32-bit value (R12). -/
abbrev Word := BitVec 32

/-- A block offset, `desc[16:0]` (R101). -/
abbrev Offset := BitVec 17

/-- A host bus descriptor: W, SZ and OFF (R101). -/
abbrev Desc := BitVec 20

end Sys2Proof
end

