-- ==== Sys2Proof/Config.lean ====
section
/-! DEFINITION. What this hardware fixes (00_scope R5-R11), what the spec leaves open (93_implementation_defined),
and the turns that the environment takes (00_scope R16). -/

namespace Sys2Proof

/-- One step of one agent, with what the environment brings to it (R16). The order of turns is the total order of
R73; no rule constrains it. -/
inductive Turn
  /-- The Host makes the access that this descriptor and data word spell (R101, I12). -/
  | host (desc : Desc) (data : Word)
  /-- A bus master makes an access at a platform address, which reaches HKB only inside the window at BASE (R61). -/
  | bus (addr : Nat) (w : Bool) (sz : BitVec 2) (data : Word)
  /-- The Core takes one sequencer micro-operation, if one is enabled (R106). -/
  | core
  /-- The HashUnit answers the outstanding request, if there is one: Ok where `ok`, else FailR (R82, I1). -/
  | hashUnit (ok : Bool)
  /-- The platform resets HKB and the HashUnit (R270). -/
  | reset
  deriving DecidableEq, Repr, Inhabited

namespace Config

/-- Block size of the hash in bytes (R6). -/
abbrev B : Nat := 64

/-- Digest size in bytes (R7). -/
abbrev L : Nat := 32

/-- The byte of the inner pad (R8). -/
abbrev IPAD : Byte := 0x36#8

/-- The byte of the outer pad (R8). -/
abbrev OPAD : Byte := 0x5c#8

/-- The largest key length HKB accepts (R9, D5). -/
abbrev KEY_MAX : Nat := 4096

/-- The largest message length HKB accepts (R9, D5). -/
abbrev MSG_MAX : Nat := 65536

/-- The hash primitive (R5, I3): a total function of its input bytes, and nothing else is assumed of it. -/
opaque H : List Byte → Vector Byte L

/-- The free value behind BASE (R10, D3). -/
opaque baseIndex : Nat

/-- The bus address of the 128 KiB window: open, a multiple of 0x20000 (R10, R61). -/
def BASE : Nat := 0x20000 * baseIndex

/-- DESIGN CHOICE (log entry 1): the `n`-th turn the environment takes once `State.agenda` is empty. The schedule and
the accesses are free (R16, I11), so nothing is known of it. -/
opaque freeTurn : Nat → Turn

end Config

end Sys2Proof
end

