-- ==== Sys2Proof/Syntax.lean ====
section
/-! DEFINITION. The instructions of HKB, one constructor for each mnemonic of spec/opcode_table.json (30_encoding
R100-R107). RSVD is one mnemonic in three rows of the table. -/

namespace Sys2Proof

/-- The purpose of a hash request (20_memory R80). -/
inductive Purpose
  | key
  | inner
  | outer
  deriving DecidableEq, Repr, Inhabited

/-- The purpose codes of R108: KEY = 0, INNER = 1, OUTER = 2. -/
def Purpose.code : Purpose → BitVec 2
  | .key => 0
  | .inner => 1
  | .outer => 2

/-- An instruction: a host bus operation, a command or a micro-operation (R3, R100). -/
inductive Instr
  /-- RD8 (R132): read one byte. -/
  | rd8 (off : Offset)
  /-- RD16 (R134): read two bytes. -/
  | rd16 (off : Offset)
  /-- RD32 (R136): read one word. -/
  | rd32 (off : Offset)
  /-- WR8 (R138): write `data[7:0]`. -/
  | wr8 (off : Offset) (data : Word)
  /-- WR16 (R140): write `data[15:0]`. -/
  | wr16 (off : Offset) (data : Word)
  /-- WR32 (R142): write `data`. -/
  | wr32 (off : Offset) (data : Word)
  /-- WR32 at KEY_LEN (R148). -/
  | wr32KeyLen (data : Word)
  /-- WR32 at MSG_LEN (R148). -/
  | wr32MsgLen (data : Word)
  /-- BUS.ILLEGAL (R144): SZ = 0b11, a write where `w`. -/
  | busIllegal (w : Bool) (off : Offset) (data : Word)
  /-- NOP (R154); `rest` is the ignored `word[31:4]`. -/
  | nop (rest : BitVec 28)
  /-- COMPUTE (R150). -/
  | compute (rest : BitVec 28)
  /-- CLEAR (R152). -/
  | clear (rest : BitVec 28)
  /-- RSVD (R156): a reserved command 0x3 to 0xF. -/
  | rsvd (cmd : BitVec 4) (rest : BitVec 28)
  /-- CHECK (R170). -/
  | check
  /-- NORM.SHORT (R172). -/
  | normShort
  /-- NORM.EXACT (R174). -/
  | normExact
  /-- NORM.LONG (R176). -/
  | normLong
  /-- KWAIT (R178). -/
  | kwait
  /-- XIPAD (R200). -/
  | xipad
  /-- XOPAD (R202). -/
  | xopad
  /-- INNER (R204). -/
  | inner
  /-- IWAIT (R206). -/
  | iwait
  /-- OUTER (R208). -/
  | outer
  /-- OWAIT (R210). -/
  | owait
  /-- SEQ.RSVD (R107): a reserved state code 0xC to 0xF. -/
  | seqRsvd (code : BitVec 4)
  deriving DecidableEq, Repr

end Sys2Proof
end

