-- ==== Sys2Proof/WellFormed.lean ====
section
/-! DEFINITION. Which instructions are the reading of some word: the ones whose operands stay inside the row of
spec/opcode_table.json that names them. -/

namespace Sys2Proof

/-- The operands lie inside the instruction's own row. A WR32 at CTRL, KEY_LEN or MSG_LEN has a row of its own (R104,
R148), RSVD is a command 0x3 to 0xF (R104), and SEQ.RSVD a state code 0xC to 0xF (R107). -/
def Instr.wellFormed : Instr → Bool
  | .rd8 _ => true
  | .rd16 _ => true
  | .rd32 _ => true
  | .wr8 _ _ => true
  | .wr16 _ _ => true
  | .wr32 off _ => decide (off ≠ 0x00010#17) && decide (off ≠ 0x00018#17) && decide (off ≠ 0x0001C#17)
  | .wr32KeyLen _ => true
  | .wr32MsgLen _ => true
  | .busIllegal _ _ _ => true
  | .nop _ => true
  | .compute _ => true
  | .clear _ => true
  | .rsvd cmd _ => decide (3 ≤ cmd.toNat)
  | .check => true
  | .normShort => true
  | .normExact => true
  | .normLong => true
  | .kwait => true
  | .xipad => true
  | .xopad => true
  | .inner => true
  | .iwait => true
  | .outer => true
  | .owait => true
  | .seqRsvd code => decide (0xC ≤ code.toNat)

end Sys2Proof
end

