-- ==== Sys2Proof/Decode.lean ====
section
/-! DEFINITION. The decoder and the encoder of the three formats BUS, CMD and SEQ (30_encoding R100-R110). A word's
class is given by where it comes from (R100), so a word to decode carries its source. -/

namespace Sys2Proof

/-- What selects a micro-operation (R106): the state code, `key_len`, and the purpose of the answer that waits in
`hport`. A SEQ has no other bits (R110). -/
structure SeqView where
  code : BitVec 4
  keyLen : Word
  answer : Option Purpose
  deriving DecidableEq, Repr

/-- An instruction's words with their source (R100). -/
inductive Fetched
  /-- A descriptor and a data word of the host bus (R101). -/
  | bus (desc : Desc) (data : Word)
  /-- A word written to CTRL (R104). -/
  | cmd (word : Word)
  /-- The sequencer's own point of control (R106). -/
  | seq (view : SeqView)
  deriving DecidableEq, Repr

/-- Why no instruction is read. -/
inductive Reject
  /-- IDLE, DONE or ERROR: the Core has no step (R106). -/
  | noMicroOp
  /-- A wait state whose answer is not there yet: the Core holds (R83, R106). -/
  | holding
  deriving DecidableEq, Repr

/-- The decoder's answer. -/
inductive Decoded
  | instr (i : Instr)
  | rejected (why : Reject)
  deriving DecidableEq, Repr

/-- `desc[19]`: 1 is a write (R101). -/
def descW (d : Desc) : Bool := d.getLsbD 19

/-- `desc[18:17]`, the size code (R101). -/
def descSz (d : Desc) : BitVec 2 := d.extractLsb' 17 2

/-- `desc[16:0]`, the block offset (R101). -/
def descOff (d : Desc) : Offset := d.extractLsb' 0 17

/-- `desc = W<<19 | SZ<<17 | OFF` (R101, R111). -/
def mkDesc (w : Bool) (sz : BitVec 2) (off : Offset) : Desc := (BitVec.ofBool w ++ sz) ++ off

/-- `word[3:0]`, the command (R104). -/
def cmdCode (word : Word) : BitVec 4 := word.extractLsb' 0 4

/-- `word[31:4]`, ignored (R104). -/
def cmdRest (word : Word) : BitVec 28 := word.extractLsb' 4 28

/-- A CTRL word from its command and its ignored bits (R104). -/
def mkCmd (cmd : BitVec 4) (rest : BitVec 28) : Word := rest ++ cmd

/-- Format CMD (R104). -/
def decodeCmd (word : Word) : Instr :=
  if cmdCode word = 0x0#4 then .nop (cmdRest word)
  else if cmdCode word = 0x1#4 then .compute (cmdRest word)
  else if cmdCode word = 0x2#4 then .clear (cmdRest word)
  else .rsvd (cmdCode word) (cmdRest word)

/-- A WR32: at CTRL it is a command (R104), at KEY_LEN and MSG_LEN it has rows of its own (R148). -/
def decodeWr32 (off : Offset) (data : Word) : Instr :=
  if off = 0x00010#17 then decodeCmd data
  else if off = 0x00018#17 then .wr32KeyLen data
  else if off = 0x0001C#17 then .wr32MsgLen data
  else .wr32 off data

/-- Format BUS: the mnemonic is selected by W and SZ (R102, R103). -/
def decodeBus (desc : Desc) (data : Word) : Instr :=
  if descSz desc = 0b11#2 then .busIllegal (descW desc) (descOff desc) data
  else if descW desc then
    if descSz desc = 0b00#2 then .wr8 (descOff desc) data
    else if descSz desc = 0b01#2 then .wr16 (descOff desc) data
    else decodeWr32 (descOff desc) data
  else
    if descSz desc = 0b00#2 then .rd8 (descOff desc)
    else if descSz desc = 0b01#2 then .rd16 (descOff desc)
    else .rd32 (descOff desc)

/-- The three conditions of state NORM: exclusive, and covering every `key_len` (R106). -/
def decodeNorm (keyLen : Word) : Instr :=
  if keyLen.toNat < Config.B then .normShort
  else if keyLen.toNat = Config.B then .normExact
  else .normLong

/-- A wait state's micro-operation is enabled by the answer of its own purpose only (R83). -/
def decodeWait (p : Purpose) (answer : Option Purpose) (i : Instr) : Decoded :=
  if answer = some p then .instr i else .rejected .holding

/-- Format SEQ (R106, R107). -/
def decodeSeq (v : SeqView) : Decoded :=
  match v.code with
  | 0x0#4 => .rejected .noMicroOp
  | 0x1#4 => .instr .check
  | 0x2#4 => .instr (decodeNorm v.keyLen)
  | 0x3#4 => decodeWait .key v.answer .kwait
  | 0x4#4 => .instr .xipad
  | 0x5#4 => .instr .xopad
  | 0x6#4 => .instr .inner
  | 0x7#4 => decodeWait .inner v.answer .iwait
  | 0x8#4 => .instr .outer
  | 0x9#4 => decodeWait .outer v.answer .owait
  | 0xA#4 => .rejected .noMicroOp
  | 0xB#4 => .rejected .noMicroOp
  | code => .instr (.seqRsvd code)

/-- The decoder, total on every word of every source. -/
def decode : Fetched → Decoded
  | .bus desc data => .instr (decodeBus desc data)
  | .cmd word => .instr (decodeCmd word)
  | .seq view => decodeSeq view

/-- The descriptor of `WR32 CTRL`, by which a command travels on the bus (R104, R112). -/
def ctrlDesc : Desc := 0xC0010#20

/-- The words of a well-formed instruction, from the encodings of R101-R107. A read's unused data word is 0, and a
micro-operation's unused conditions are 0 and no answer. -/
def encode : Instr → Fetched
  | .rd8 off => .bus (mkDesc false 0b00#2 off) 0
  | .rd16 off => .bus (mkDesc false 0b01#2 off) 0
  | .rd32 off => .bus (mkDesc false 0b10#2 off) 0
  | .wr8 off data => .bus (mkDesc true 0b00#2 off) data
  | .wr16 off data => .bus (mkDesc true 0b01#2 off) data
  | .wr32 off data => .bus (mkDesc true 0b10#2 off) data
  | .wr32KeyLen data => .bus (mkDesc true 0b10#2 0x00018#17) data
  | .wr32MsgLen data => .bus (mkDesc true 0b10#2 0x0001C#17) data
  | .busIllegal w off data => .bus (mkDesc w 0b11#2 off) data
  | .nop rest => .cmd (mkCmd 0x0#4 rest)
  | .compute rest => .cmd (mkCmd 0x1#4 rest)
  | .clear rest => .cmd (mkCmd 0x2#4 rest)
  | .rsvd cmd rest => .cmd (mkCmd cmd rest)
  | .check => .seq ⟨0x1#4, 0, none⟩
  | .normShort => .seq ⟨0x2#4, 0, none⟩
  | .normExact => .seq ⟨0x2#4, 64#32, none⟩
  | .normLong => .seq ⟨0x2#4, 65#32, none⟩
  | .kwait => .seq ⟨0x3#4, 0, some .key⟩
  | .xipad => .seq ⟨0x4#4, 0, none⟩
  | .xopad => .seq ⟨0x5#4, 0, none⟩
  | .inner => .seq ⟨0x6#4, 0, none⟩
  | .iwait => .seq ⟨0x7#4, 0, some .inner⟩
  | .outer => .seq ⟨0x8#4, 0, none⟩
  | .owait => .seq ⟨0x9#4, 0, some .outer⟩
  | .seqRsvd code => .seq ⟨code, 0, none⟩

/-- The selecting conditions that a table word's state code is read with: an empty key, and in a wait state the
answer it waits for. -/
def tableView (code : BitVec 4) : SeqView :=
  { code := code
    keyLen := 0
    answer :=
      if code = 0x3#4 then some .key
      else if code = 0x7#4 then some .inner
      else if code = 0x9#4 then some .outer
      else none }

/-- DESIGN CHOICE (log entry 2): the source of a word that comes without one. A SEQ row of the table has a 4-bit code
and a CMD is always one 32-bit word (R110), so up to 16 bits are a state code, where the code has a row, and else a
command; 32 bits are a CTRL word; any other length is a descriptor with its data word from bit 20 on. -/
def tableFetched (nbits w : Nat) : Fetched :=
  if nbits ≤ 16 then
    let code := BitVec.ofNat 4 w
    if code = 0x0#4 ∨ code = 0xA#4 ∨ code = 0xB#4 then .cmd (BitVec.ofNat 32 w) else .seq (tableView code)
  else if nbits = 32 then .cmd (BitVec.ofNat 32 w)
  else .bus (BitVec.ofNat 20 w) (BitVec.ofNat 32 (w / 2 ^ 20))

/-- The instruction the decoder reads from a word numbered as spec/opcode_table.json numbers it. -/
def decodeTableWord (nbits w : Nat) : Option Instr :=
  match decode (tableFetched nbits w) with
  | .instr i => some i
  | .rejected _ => none

end Sys2Proof
end

