-- ==== Sys2Proof/Machine/State.lean ====
section
/-! DEFINITION. All the state the spec gives HKB (10_state), the environment's own data beside it, the reasons a step
stops, and the state after reset (10_state R47, 70_reset_and_hazards R270). -/

namespace Sys2Proof.Machine

/-- The sequencer states of R26. The codes 0xC to 0xF are reserved and never entered (R107). -/
inductive SeqState
  | idle
  | check
  | norm
  | kwait
  | xipad
  | xopad
  | inner
  | iwait
  | outer
  | owait
  | done
  | error
  | reservedC
  | reservedD
  | reservedE
  | reservedF
  deriving DecidableEq, Repr, Inhabited

/-- What the HashUnit answers (R43): the digest, or that the primitive failed or is unavailable. -/
inductive HashResult
  | ok (d : Vector Byte Config.L)
  | failR
  deriving DecidableEq, Repr

/-- The hash-port channel (R43). -/
inductive HPort
  | empty
  | req (p : Purpose) (data : List Byte)
  | rsp (p : Purpose) (r : HashResult)
  deriving DecidableEq, Repr

/-- One Issue event of the port's history (R80, R87). -/
structure Issue where
  purpose : Purpose
  data : List Byte
  deriving DecidableEq, Repr

/-- The bus response (R62). -/
inductive Resp
  | okay
  | slverr
  deriving DecidableEq, Repr

/-- What a Host access gets back (R62): its response, and on a read the 32-bit read word (R101, R105). -/
structure Reply where
  resp : Resp
  read : Option Word
  deriving DecidableEq, Repr

/-- The bytes of a buffer by index, in one canonical form: indexes strictly rising, no byte listed that an unlisted
index reads as (`Memory.wf` in Ops.lean). -/
abbrev Memory := List Host.Cell

/-- The machine. The fields down to `hport` are the state R47 lists; the rest belongs to the history and to the
agents around HKB. -/
structure State where
  /-- `state`, the sequencer's point of control (R26). -/
  seq : SeqState
  /-- `ign`, the sticky flag of ignored writes (R28). -/
  ign : Bool
  /-- `errcode` (R29). -/
  errcode : BitVec 4
  /-- `hcnt`, the hash requests of the current or last call (R30). -/
  hcnt : BitVec 2
  /-- KEY_LEN (R34). -/
  keyLen : Word
  /-- MSG_LEN (R35). -/
  msgLen : Word
  /-- `key_buf`, KEY_MAX bytes (R36). -/
  keyBuf : Memory
  /-- `msg_buf`, MSG_MAX bytes (R37). -/
  msgBuf : Memory
  /-- The normalized key (R38). -/
  k0 : Vector Byte Config.B
  /-- `k0_ipad` (R39). -/
  k0Ipad : Vector Byte Config.B
  /-- `k0_opad` (R40). -/
  k0Opad : Vector Byte Config.B
  /-- `inner_digest` (R41). -/
  innerDigest : Vector Byte Config.L
  /-- `tag` (R42). -/
  tag : Vector Byte Config.L
  /-- The hash-port channel (R43). -/
  hport : HPort
  /-- The history of Issue events, oldest first (R80, R87). -/
  issues : List Issue
  /-- The model's own: what the latest Host access got back (R62). -/
  reply : Option Reply
  /-- The model's own: the turns that come next, oldest first (R16). -/
  agenda : List Turn
  /-- The model's own: how many turns were drawn from `Config.freeTurn`. -/
  tick : Nat
  deriving DecidableEq, Repr

/-- Why the machine stops with a fault. Each is an application outside a rule's stated precondition, in a state that
no run reaches (log entry 6). -/
inductive Fault
  /-- Raised by HashIssue when `hport` is not Empty, against R80 and R84. Safe: the model stops. -/
  | hashPortBusy
  /-- Raised by HashIssue when `hcnt` is 3, which "does not wrap" (R30). Safe: the model stops. -/
  | hashCountFull
  /-- Raised by NORM.LONG and INNER when a length runs past the end of its buffer (R36, R37). Safe: the model stops. -/
  | sliceOutOfRange
  deriving DecidableEq, Repr

/-- Why an instruction or a turn has no meaning. -/
inductive Refusal
  /-- Raised by an arm of `exec` that has no meaning yet. Safe. -/
  | notModelled (mnemonic : String)
  /-- Raised by SEQ.RSVD and by a Host access that meets a reserved state code 0xC to 0xF: "refuse" (R107, I9). Safe. -/
  | reservedSeqState (s : SeqState)
  /-- Raised by any turn but a reset that meets an ERRCODE of 3 to 15: "refuse" (R29, I10). Safe. -/
  | reservedErrcode (code : BitVec 4)
  /-- Raised by a bus access outside the window at BASE: "refuse" (R61, I6). Safe. -/
  | outsideWindow (addr : Nat)
  deriving DecidableEq, Repr

/-- The three outcomes of a step of this machine. -/
abbrev Result := Host.Outcome State Fault Refusal

/-- The machine right after reset (R47, R270): IDLE and zero everywhere. The last four fields are not HKB's: nothing
issued, nothing accessed, no turn settled (log entries 1, 3, 4). -/
def State.reset : State where
  seq := .idle
  ign := false
  errcode := 0
  hcnt := 0
  keyLen := 0
  msgLen := 0
  keyBuf := []
  msgBuf := []
  k0 := Vector.replicate Config.B 0
  k0Ipad := Vector.replicate Config.B 0
  k0Opad := Vector.replicate Config.B 0
  innerDigest := Vector.replicate Config.L 0
  tag := Vector.replicate Config.L 0
  hport := .empty
  issues := []
  reply := none
  agenda := []
  tick := 0

end Sys2Proof.Machine
end

