-- ==== Sys2Proof/Machine/Flags.lean ====
section
/-! DEFINITION. The sequencer's state codes (10_state R26), the flags derived from `state` (R27), the error codes (R29)
and STATUS (R32). HKB has no condition codes (R48). -/

namespace Sys2Proof.Machine

/-- The 4-bit code of a sequencer state (R26). -/
def SeqState.code : SeqState → BitVec 4
  | .idle => 0x0
  | .check => 0x1
  | .norm => 0x2
  | .kwait => 0x3
  | .xipad => 0x4
  | .xopad => 0x5
  | .inner => 0x6
  | .iwait => 0x7
  | .outer => 0x8
  | .owait => 0x9
  | .done => 0xA
  | .error => 0xB
  | .reservedC => 0xC
  | .reservedD => 0xD
  | .reservedE => 0xE
  | .reservedF => 0xF

/-- The sequencer state of a 4-bit code (R26). -/
def SeqState.ofCode (c : BitVec 4) : SeqState :=
  match c with
  | 0x0#4 => .idle
  | 0x1#4 => .check
  | 0x2#4 => .norm
  | 0x3#4 => .kwait
  | 0x4#4 => .xipad
  | 0x5#4 => .xopad
  | 0x6#4 => .inner
  | 0x7#4 => .iwait
  | 0x8#4 => .outer
  | 0x9#4 => .owait
  | 0xA#4 => .done
  | 0xB#4 => .error
  | 0xC#4 => .reservedC
  | 0xD#4 => .reservedD
  | 0xE#4 => .reservedE
  | _ => .reservedF

/-- The states in which a call runs (R27). -/
def SeqState.busy : SeqState → Bool
  | .check | .norm | .kwait | .xipad | .xopad | .inner | .iwait | .outer | .owait => true
  | .idle | .done | .error | .reservedC | .reservedD | .reservedE | .reservedF => false

/-- The reserved codes 0xC to 0xF (R26, R107). -/
def SeqState.reserved : SeqState → Bool
  | .reservedC | .reservedD | .reservedE | .reservedF => true
  | .idle | .check | .norm | .kwait | .xipad | .xopad | .inner | .iwait | .outer | .owait | .done | .error => false

/-- BUSY (R27). -/
def State.busy (s : State) : Bool := s.seq.busy

/-- DONE (R27). -/
def State.done (s : State) : Bool := decide (s.seq = .done)

/-- ERR (R27). -/
def State.err (s : State) : Bool := decide (s.seq = .error)

/-- ERRCODE NONE (R29). -/
def errNone : BitVec 4 := 0

/-- ERRCODE INVALID_SIZE (R29, R240). -/
def errInvalidSize : BitVec 4 := 1

/-- ERRCODE HASH_FAIL (R29, R240). -/
def errHashFail : BitVec 4 := 2

/-- ERRCODE 3 to 15: reserved, never written (R29). -/
def errReserved (c : BitVec 4) : Bool := decide (3 ≤ c.toNat)

/-- A flag as a 32-bit number. -/
def flagWord (b : Bool) : Word := (BitVec.ofBool b).setWidth 32

/-- STATUS (R32). -/
def State.status (s : State) : Word :=
  s.seq.code.setWidth 32 ||| (flagWord s.busy <<< 4) ||| (flagWord s.done <<< 5) ||| (flagWord s.err <<< 6)
    ||| (flagWord s.ign <<< 7) ||| (s.errcode.setWidth 32 <<< 8) ||| (s.hcnt.setWidth 32 <<< 12)

end Sys2Proof.Machine
end

