-- ==== Sys2Proof/Machine/Operands.lean ====
section
/-! DEFINITION. Operand forms: big-endian packing (00_scope R15, 20_memory R67), the operands of a bus access
(30_encoding R105), the map of the host space (20_memory R60) and its access check (41_host_interface R130), and the
fixed-length byte sequences of the Core (00_scope R12). -/

namespace Sys2Proof.Machine

/-- `unbe_n(v)` (R15): the `n` bytes of `v[8n-1:0]`, most significant first. What `v` holds above is ignored (R105). -/
def unbe (n : Nat) (v : Word) : List Byte :=
  (List.range n).map fun k => v.extractLsb' (8 * (n - 1 - k)) 8

/-- `be_4` (R15): byte 0 is the most significant. -/
def be4 (b0 b1 b2 b3 : Byte) : Word := ((b0 ++ b1) ++ b2) ++ b3

/-- What an offset of the host space names (R60). Window targets carry the index into their buffer. -/
inductive Target
  | id
  | params
  | keymax
  | msgmax
  | ctrl
  | status
  | keyLen
  | msgLen
  | tag (j : Nat)
  | reserved
  | keyWindow (o : Nat)
  | msgWindow (o : Nat)
  deriving DecidableEq, Repr

/-- The host space map (R60). -/
def target (off : Nat) : Target :=
  if off = 0x000 then .id
  else if off = 0x004 then .params
  else if off = 0x008 then .keymax
  else if off = 0x00C then .msgmax
  else if off = 0x010 then .ctrl
  else if off = 0x014 then .status
  else if off = 0x018 then .keyLen
  else if off = 0x01C then .msgLen
  else if 0x040 ≤ off ∧ off ≤ 0x07F then .tag ((off - 0x040) / 4)
  else if 0x01000 ≤ off ∧ off ≤ 0x01FFF then .keyWindow (off - 0x01000)
  else if 0x10000 ≤ off ∧ off ≤ 0x1FFFF then .msgWindow (off - 0x10000)
  else .reserved

/-- The check of R130 on an access of `n` bytes: aligned (R63), and 4 bytes wide in the control region (R65). -/
def accessOk (n off : Nat) : Bool :=
  decide (off % n = 0) && !(decide (off < 0x01000) && decide (n ≠ 4))

/-- `zeros(n)` (R12). -/
def zeros (n : Nat) : Vector Byte n := Vector.replicate n 0

/-- `s || zeros(n - len(s))`, of `n` bytes (R12). A longer `s` is cut to `n` bytes; no rule gives one. -/
def padRight (n : Nat) (s : List Byte) : Vector Byte n :=
  ⟨⟨(List.range n).map fun i => s.getD i 0⟩, by simp⟩

/-- Every byte XORed with the constant `c` (R12, R200, R202). -/
def xorAll {n : Nat} (c : Byte) (v : Vector Byte n) : Vector Byte n :=
  ⟨⟨v.toList.map fun b => b ^^^ c⟩, by simp⟩

end Sys2Proof.Machine
end

