-- ==== Sys2Proof/Machine/Ops.lean ====
section
/-! DEFINITION. The named operations over the buffers and the state that the meanings share: buffer reads and writes
(20_memory R67-R69), bus replies (R62, R64), guarded writes and commands (41_host_interface R150-R158), Scrub and Fail
(43_block_assembler R211, R212), the hash port (20_memory R80-R84) and reset (70_reset_and_hazards R270). -/

namespace Sys2Proof.Machine

/-! ### Buffers -/

/-- What an index that no cell lists reads as: the zero that reset, CLEAR and Scrub leave (R47, R184, D28). -/
def Memory.unlisted : Byte := 0

/-- The byte at an index. -/
def Memory.read : Memory → Nat → Byte
  | [], _ => Memory.unlisted
  | (b, x) :: m, a => if b = a then x else Memory.read m a

/-- Put a byte at an index; the value an unlisted index reads as removes the cell. -/
def Memory.write : Memory → Nat → Byte → Memory
  | [], a, v => if v = Memory.unlisted then [] else [(a, v)]
  | (b, x) :: m, a, v =>
    if a < b then if v = Memory.unlisted then (b, x) :: m else (a, v) :: (b, x) :: m
    else if a = b then if v = Memory.unlisted then m else (a, v) :: m
    else (b, x) :: Memory.write m a v

/-- Indexes rise strictly from `lo` on and no cell holds what an unlisted index reads as. -/
def Memory.wfFrom : Nat → Memory → Bool
  | _, [] => true
  | lo, (a, v) :: m => decide (lo ≤ a) && decide (v ≠ Memory.unlisted) && Memory.wfFrom (a + 1) m

/-- The canonical form of a buffer. -/
def Memory.wf (m : Memory) : Bool := Memory.wfFrom 0 m

/-- Every listed index lies below the buffer's length (R36, R37). -/
def Memory.within (bound : Nat) (m : Memory) : Bool := m.all fun c => decide (c.1 < bound)

/-- The bytes `m[0:n)` in index order. -/
def Memory.slice (m : Memory) (n : Nat) : List Byte := (List.range n).map m.read

/-- Put bytes at ascending indexes from `o` on; a byte at or above `bound` is dropped (R68, R69). -/
def Memory.writeBytes (bound : Nat) : Memory → Nat → List Byte → Memory
  | m, _, [] => m
  | m, o, b :: bs => Memory.writeBytes bound (if o < bound then m.write o b else m) (o + 1) bs

/-! ### Bus replies -/

/-- The Host gets a response to a write (R62). -/
def State.replyWrite (r : Resp) (s : State) : State := { s with reply := some ⟨r, none⟩ }

/-- The Host gets a response and a read word (R62). -/
def State.replyRead (r : Resp) (v : Word) (s : State) : State := { s with reply := some ⟨r, some v⟩ }

/-- A read of `n` bytes (R130): OKAY with the value, or SLVERR with 0 and no effect (R64). -/
def busRead (n : Nat) (off : Offset) (value : State → Word) (s : State) : Result :=
  if accessOk n off.toNat then .next (s.replyRead .okay (value s)) else .next (s.replyRead .slverr 0)

/-- A write of `n` bytes (R130): OKAY with the effect, or SLVERR with no effect (R64). -/
def busWrite (n : Nat) (off : Offset) (effect : State → State) (s : State) : Result :=
  if accessOk n off.toNat then .next ((effect s).replyWrite .okay) else .next (s.replyWrite .slverr)

/-! ### Scrub and Fail -/

/-- Scrub (R211): zero all call-scoped state. -/
def State.scrub (s : State) : State :=
  { s with
    keyBuf := []
    msgBuf := []
    keyLen := 0
    msgLen := 0
    k0 := zeros Config.B
    k0Ipad := zeros Config.B
    k0Opad := zeros Config.B
    innerDigest := zeros Config.L }

/-- Fail(code) (R212, R246): HKB's only trap-like action (R14). It scrubs, records the code and enters ERROR; `tag` and
`hcnt` are kept. -/
def State.fail (code : BitVec 4) (s : State) : State :=
  { s.scrub with errcode := code, seq := .error }

/-! ### Host writes -/

/-- A guarded write (R158): while BUSY it only sets IGN. -/
def State.guarded (effect : State → State) (s : State) : State :=
  if s.busy then { s with ign := true } else effect s

/-- COMPUTE acceptance (R150): it starts a call, and it is one way out of ERROR (R247). -/
def State.startCall (s : State) : State :=
  { s with tag := zeros Config.L, errcode := errNone, hcnt := 0, seq := .check }

/-- CLEAR where it is accepted (R152): the other way out of ERROR on the Host's part (R247). -/
def State.clearAll (s : State) : State :=
  { s.scrub with tag := zeros Config.L, errcode := errNone, hcnt := 0, ign := false, seq := .idle }

/-- A reserved command (R156). -/
def State.reservedCommand (s : State) : State := { s with ign := true }

/-- Command dispatch on `DATA[3:0]` (R142). -/
def State.command (word : Word) (s : State) : State :=
  if cmdCode word = 0x0#4 then s
  else if cmdCode word = 0x1#4 then s.guarded State.startCall
  else if cmdCode word = 0x2#4 then s.guarded State.clearAll
  else s.reservedCommand

/-- A KEY_LEN write (R148). -/
def State.writeKeyLen (data : Word) (s : State) : State := s.guarded fun t => { t with keyLen := data }

/-- A MSG_LEN write (R148). -/
def State.writeMsgLen (data : Word) (s : State) : State := s.guarded fun t => { t with msgLen := data }

/-- A key-window write of these bytes at this index (R68). -/
def State.writeKeyWindow (o : Nat) (bytes : List Byte) (s : State) : State :=
  s.guarded fun t => { t with keyBuf := t.keyBuf.writeBytes Config.KEY_MAX o bytes }

/-- A message-window write of these bytes at this index (R69). -/
def State.writeMsgWindow (o : Nat) (bytes : List Byte) (s : State) : State :=
  s.guarded fun t => { t with msgBuf := t.msgBuf.writeBytes Config.MSG_MAX o bytes }

/-- A narrow write in the window region (R138, R140): the windows take it, a reserved offset does not (R70). -/
def State.writeNarrow (n : Nat) (off : Offset) (data : Word) (s : State) : State :=
  match target off.toNat with
  | .keyWindow o => s.writeKeyWindow o (unbe n data)
  | .msgWindow o => s.writeMsgWindow o (unbe n data)
  | .id | .params | .keymax | .msgmax | .ctrl | .status | .keyLen | .msgLen | .tag _ | .reserved => s

/-! ### The hash port -/

/-- HashIssue(p, data) (R80), and the move to the state that waits for its answer. -/
def State.hashIssue (p : Purpose) (data : List Byte) (wait : SeqState) (s : State) : Result :=
  if s.hport ≠ .empty then .fault .hashPortBusy
  else if s.hcnt = 3 then .fault .hashCountFull
  else .next { s with hport := .req p data, hcnt := s.hcnt + 1, issues := s.issues ++ [⟨p, data⟩], seq := wait }

/-- A wait state's step (R83): enabled by the answer of purpose `p`, which it consumes. Ok goes on with the digest,
FailR goes to Fail(HASH_FAIL) and is never retried (R248). Not enabled, the Core holds. -/
def State.consume (wait : SeqState) (p : Purpose) (onOk : Vector Byte Config.L → State → State) (s : State) : Result :=
  match s.hport with
  | .rsp q r =>
    if s.seq = wait ∧ q = p then
      match r with
      | .ok d => .next (onOk d { s with hport := .empty })
      | .failR => .next (State.fail errHashFail { s with hport := .empty })
    else .next s
  | .empty => .next s
  | .req _ _ => .next s

/-- The HashUnit's step (R82): it answers a request once, with the digest `H(data)` or FailR, and it does nothing when
there is none (R84). -/
def State.hashAnswer (ok : Bool) (s : State) : State :=
  match s.hport with
  | .req p data => { s with hport := .rsp p (if ok then .ok (Config.H data) else .failR) }
  | .empty => s
  | .rsp _ _ => s

/-! ### Reset -/

/-- The platform's reset (R270): every piece of HKB's state, the hash port and so the HashUnit's request with it, takes
its reset value. The history and what lies outside HKB stay. -/
def State.resetHkb (s : State) : State :=
  { State.reset with issues := s.issues, reply := s.reply, agenda := s.agenda, tick := s.tick }

end Sys2Proof.Machine
end

