-- ==== Sys2Proof/Machine/BlockAssembler.lean ====
section
/-! DEFINITION. The block assembler micro-operations XIPAD, XOPAD, INNER, IWAIT, OUTER and OWAIT (43_block_assembler
R200-R210), and SEQ.RSVD (30_encoding R107). -/

namespace Sys2Proof.Machine

/-- `msg_buf[0:msg_len)`, the message of a call (R37). -/
def State.msg (s : State) : List Byte := s.msgBuf.slice s.msgLen.toNat

/-- XIPAD (R200). -/
def execXipad (s : State) : Result :=
  if s.seq = .xipad then .next { s with k0Ipad := xorAll Config.IPAD s.k0, seq := .xopad } else .next s

/-- XOPAD (R202). -/
def execXopad (s : State) : Result :=
  if s.seq = .xopad then .next { s with k0Opad := xorAll Config.OPAD s.k0, seq := .inner } else .next s

/-- INNER (R204): the inner block is `k0_ipad || msg_buf[0:msg_len)`. -/
def execInner (s : State) : Result :=
  if s.seq = .inner then
    if Config.MSG_MAX < s.msgLen.toNat then .fault .sliceOutOfRange
    else s.hashIssue .inner (s.k0Ipad.toList ++ s.msg) .iwait
  else .next s

/-- IWAIT (R206). -/
def execIwait (s : State) : Result :=
  s.consume .iwait .inner fun d t => { t with innerDigest := d, seq := .outer }

/-- OUTER (R208): the outer block is `k0_opad || inner_digest`. -/
def execOuter (s : State) : Result :=
  if s.seq = .outer then s.hashIssue .outer (s.k0Opad.toList ++ s.innerDigest.toList) .owait else .next s

/-- OWAIT (R210): the tag is written and the buffers are scrubbed in one step. -/
def execOwait (s : State) : Result :=
  s.consume .owait .outer fun d t => { ({ t with tag := d } : State).scrub with seq := .done }

/-- SEQ.RSVD (R107): "A model that meets one anyway must refuse", and no successor is picked. -/
def execSeqRsvd (code : BitVec 4) (_s : State) : Result := .refused (.reservedSeqState (SeqState.ofCode code))

end Sys2Proof.Machine
end

