-- ==== Sys2Proof/Machine/Command.lean ====
section
/-! DEFINITION. The commands NOP, COMPUTE, CLEAR and RSVD (41_host_interface R150-R156). A command is a WR32 to CTRL, so
its response is OKAY. `word[31:4]` is ignored (30_encoding R104). -/

namespace Sys2Proof.Machine

/-- NOP (R154): no effect, in every state. -/
def execNop (s : State) : Result := .next (s.replyWrite .okay)

/-- COMPUTE (R150). -/
def execCompute (s : State) : Result := .next ((s.guarded State.startCall).replyWrite .okay)

/-- CLEAR (R152). -/
def execClear (s : State) : Result := .next ((s.guarded State.clearAll).replyWrite .okay)

/-- RSVD (R156): IGN in every state, and nothing else. -/
def execRsvd (s : State) : Result := .next (s.reservedCommand.replyWrite .okay)

end Sys2Proof.Machine
end

