-- ==== Sys2Proof/Machine/HostRead.lean ====
section
/-! DEFINITION. The host reads RD8, RD16, RD32 (41_host_interface R132-R136) and BUS.ILLEGAL (R144). No read has a side
effect (20_memory R72). -/

namespace Sys2Proof.Machine

/-- ID: "HMAC" packed big-endian (R22). -/
def idWord : Word := 0x484D4143#32

/-- PARAMS: `L<<16 | B` (R23). -/
def paramsWord : Word := (BitVec.ofNat 32 Config.L <<< 16) ||| BitVec.ofNat 32 Config.B

/-- KEYMAX (R24). -/
def keymaxWord : Word := BitVec.ofNat 32 Config.KEY_MAX

/-- MSGMAX (R25). -/
def msgmaxWord : Word := BitVec.ofNat 32 Config.MSG_MAX

/-- TAGj (R31): four tag bytes, lowest index most significant, and 0 from `L/4` on. -/
def State.tagWord (j : Nat) (s : State) : Word :=
  if j < Config.L / 4 then
    be4 (s.tag.toList.getD (4 * j) 0) (s.tag.toList.getD (4 * j + 1) 0) (s.tag.toList.getD (4 * j + 2) 0)
      (s.tag.toList.getD (4 * j + 3) 0)
  else 0

/-- The word read at an offset (R136): the windows (R66), the reserved offsets (R70) and CTRL (R33) read 0. -/
def State.readWord (off : Offset) (s : State) : Word :=
  match target off.toNat with
  | .id => idWord
  | .params => paramsWord
  | .keymax => keymaxWord
  | .msgmax => msgmaxWord
  | .ctrl => 0
  | .status => s.status
  | .keyLen => s.keyLen
  | .msgLen => s.msgLen
  | .tag j => s.tagWord j
  | .reserved => 0
  | .keyWindow _ => 0
  | .msgWindow _ => 0

/-- RD8 (R132): past the check the offset lies in the window region, which reads 0 (R66). -/
def execRd8 (off : Offset) (s : State) : Result := busRead 1 off (fun _ => 0) s

/-- RD16 (R134). -/
def execRd16 (off : Offset) (s : State) : Result := busRead 2 off (fun _ => 0) s

/-- RD32 (R136). -/
def execRd32 (off : Offset) (s : State) : Result := busRead 4 off (State.readWord off) s

/-- BUS.ILLEGAL (R144): always SLVERR, and nothing else. -/
def execBusIllegal (w : Bool) (s : State) : Result :=
  if w then .next (s.replyWrite .slverr) else .next (s.replyRead .slverr 0)

end Sys2Proof.Machine
end

