-- ==== Sys2Proof/Machine/HostWrite.lean ====
section
/-! DEFINITION. The host writes WR8, WR16, WR32 and the KEY_LEN and MSG_LEN writes (41_host_interface R138-R148). -/

namespace Sys2Proof.Machine

/-- WR8 (R138). -/
def execWr8 (off : Offset) (data : Word) (s : State) : Result := busWrite 1 off (State.writeNarrow 1 off data) s

/-- WR16 (R140). -/
def execWr16 (off : Offset) (data : Word) (s : State) : Result := busWrite 2 off (State.writeNarrow 2 off data) s

/-- The effect of a word write by its offset (R142): read-only registers and reserved offsets take nothing. -/
def State.writeWord (off : Offset) (data : Word) (s : State) : State :=
  match target off.toNat with
  | .ctrl => s.command data
  | .keyLen => s.writeKeyLen data
  | .msgLen => s.writeMsgLen data
  | .keyWindow o => s.writeKeyWindow o (unbe 4 data)
  | .msgWindow o => s.writeMsgWindow o (unbe 4 data)
  | .id | .params | .keymax | .msgmax | .status | .tag _ | .reserved => s

/-- WR32 (R142), at every offset: the decoder reads CTRL, KEY_LEN and MSG_LEN as rows of their own, and the effect
there is the same. -/
def execWr32 (off : Offset) (data : Word) (s : State) : Result := busWrite 4 off (State.writeWord off data) s

/-- WR32 at KEY_LEN (R148). -/
def execWr32KeyLen (data : Word) (s : State) : Result := .next ((s.writeKeyLen data).replyWrite .okay)

/-- WR32 at MSG_LEN (R148). -/
def execWr32MsgLen (data : Word) (s : State) : Result := .next ((s.writeMsgLen data).replyWrite .okay)

end Sys2Proof.Machine
end

