-- ==== Sys2Proof/Machine/KeyNormalizer.lean ====
section
/-! DEFINITION. The KeyNormalizer micro-operations CHECK, NORM.SHORT, NORM.EXACT, NORM.LONG and KWAIT
(42_key_normalizer R170-R178). A micro-operation whose state or condition does not hold is no Core step: the Core
holds (30_encoding R106). -/

namespace Sys2Proof.Machine

/-- `key_buf[0:key_len)`, the key of a call (R36). -/
def State.key (s : State) : List Byte := s.keyBuf.slice s.keyLen.toNat

/-- CHECK (R170). -/
def execCheck (s : State) : Result :=
  if s.seq = .check then
    if Config.KEY_MAX < s.keyLen.toNat ∨ Config.MSG_MAX < s.msgLen.toNat then .next (s.fail errInvalidSize)
    else .next { s with seq := .norm }
  else .next s

/-- NORM.SHORT (R172, R173). -/
def execNormShort (s : State) : Result :=
  if s.seq = .norm ∧ s.keyLen.toNat < Config.B then .next { s with k0 := padRight Config.B s.key, seq := .xipad }
  else .next s

/-- NORM.EXACT (R174): a copy of `key_buf[0:B)`. -/
def execNormExact (s : State) : Result :=
  if s.seq = .norm ∧ s.keyLen.toNat = Config.B then
    .next { s with k0 := padRight Config.B (s.keyBuf.slice Config.B), seq := .xipad }
  else .next s

/-- NORM.LONG (R176): "and `key_len <= KEY_MAX`, by rule R170". -/
def execNormLong (s : State) : Result :=
  if s.seq = .norm ∧ Config.B < s.keyLen.toNat then
    if Config.KEY_MAX < s.keyLen.toNat then .fault .sliceOutOfRange else s.hashIssue .key s.key .kwait
  else .next s

/-- KWAIT (R178): the digest, padded with `B - L` zero bytes. -/
def execKwait (s : State) : Result :=
  s.consume .kwait .key fun d t => { t with k0 := padRight Config.B d.toList, seq := .xipad }

end Sys2Proof.Machine
end

