-- ==== Sys2Proof/Machine/Dispatch.lean ====
section
/-! DEFINITION. One arm per instruction (00_scope R3), each one call of its meaning. -/

namespace Sys2Proof.Machine

def exec (i : Instr) (s : State) : Host.Outcome State Fault Refusal :=
  match i with
  -- Host bus operations (41_host_interface)
  | .rd8 off => Sys2Proof.Machine.execRd8 off s
  | .rd16 off => Sys2Proof.Machine.execRd16 off s
  | .rd32 off => Sys2Proof.Machine.execRd32 off s
  | .wr8 off data => Sys2Proof.Machine.execWr8 off data s
  | .wr16 off data => Sys2Proof.Machine.execWr16 off data s
  | .wr32 off data => Sys2Proof.Machine.execWr32 off data s
  | .wr32KeyLen data => Sys2Proof.Machine.execWr32KeyLen data s
  | .wr32MsgLen data => Sys2Proof.Machine.execWr32MsgLen data s
  | .busIllegal w _ _ => Sys2Proof.Machine.execBusIllegal w s
  -- Commands (41_host_interface)
  | .nop _ => Sys2Proof.Machine.execNop s
  | .compute _ => Sys2Proof.Machine.execCompute s
  | .clear _ => Sys2Proof.Machine.execClear s
  | .rsvd _ _ => Sys2Proof.Machine.execRsvd s
  -- KeyNormalizer micro-operations (42_key_normalizer)
  | .check => Sys2Proof.Machine.execCheck s
  | .normShort => Sys2Proof.Machine.execNormShort s
  | .normExact => Sys2Proof.Machine.execNormExact s
  | .normLong => Sys2Proof.Machine.execNormLong s
  | .kwait => Sys2Proof.Machine.execKwait s
  -- Block assembler micro-operations (43_block_assembler)
  | .xipad => Sys2Proof.Machine.execXipad s
  | .xopad => Sys2Proof.Machine.execXopad s
  | .inner => Sys2Proof.Machine.execInner s
  | .iwait => Sys2Proof.Machine.execIwait s
  | .outer => Sys2Proof.Machine.execOuter s
  | .owait => Sys2Proof.Machine.execOwait s
  | .seqRsvd code => Sys2Proof.Machine.execSeqRsvd code s

end Sys2Proof.Machine
end

