-- ==== Sys2Proof/Machine/Agents.lean ====
section
/-! DEFINITION. What each agent's turn does (00_scope R16): the Host's access (41_host_interface R130), the platform's
bus address (20_memory R61), the Core's micro-operation (30_encoding R106), the HashUnit's answer (20_memory R82) and
reset (70_reset_and_hazards R270); which turn comes next; and how a fetched word is placed for the very next step. -/

namespace Sys2Proof.Machine

/-- The turn that comes next: the oldest settled one, or a free one (log entry 1). -/
def State.nextTurn (s : State) : Turn :=
  match s.agenda with
  | t :: _ => t
  | [] => Config.freeTurn s.tick

/-- The state once that turn is taken from the agenda, or drawn. -/
def State.takeTurn (s : State) : State :=
  match s.agenda with
  | _ :: rest => { s with agenda := rest }
  | [] => { s with tick := s.tick + 1 }

/-- The purpose of the answer that waits in `hport` (R83). -/
def HPort.answer : HPort → Option Purpose
  | .empty => none
  | .req _ _ => none
  | .rsp p _ => some p

/-- What selects the Core's micro-operation (R106). -/
def State.seqView (s : State) : SeqView :=
  { code := s.seq.code, keyLen := s.keyLen, answer := s.hport.answer }

/-- A Host turn: the access is decoded and performed (R130). A reserved state code is refused (R107, I9). -/
def hostTurn (desc : Desc) (data : Word) (s : State) : Result :=
  if s.seq.reserved then .refused (.reservedSeqState s.seq) else exec (decodeBus desc data) s

/-- The descriptor of an access at a platform address (R61): `off = a - BASE`. -/
def busDesc (addr : Nat) (w : Bool) (sz : BitVec 2) : Desc :=
  mkDesc w sz (BitVec.ofNat 17 (addr - Config.BASE))

/-- A platform access (R61): inside the window it reaches HKB, and outside HKB has no step for it (I6). -/
def busTurn (addr : Nat) (w : Bool) (sz : BitVec 2) (data : Word) (s : State) : Result :=
  if Config.BASE ≤ addr ∧ addr < Config.BASE + 0x20000 then hostTurn (busDesc addr w sz) data s
  else .refused (.outsideWindow addr)

/-- A Core turn: the micro-operation that state and condition select, or none, and then the Core holds (R106). -/
def coreTurn (s : State) : Result :=
  match decode (.seq s.seqView) with
  | .instr i => exec i s
  | .rejected _ => .next s

/-- A HashUnit turn (R82). -/
def hashTurn (ok : Bool) (s : State) : Result := .next (s.hashAnswer ok)

/-- A reset turn, whatever state it meets (R245, R270). -/
def resetTurn (s : State) : Result := .next s.resetHkb

/-- A turn that meets a reserved ERRCODE is refused (I10). -/
def legalTurn (turn : State → Result) (s : State) : Result :=
  if errReserved s.errcode then .refused (.reservedErrcode s.errcode) else turn s

/-- One turn of one agent (R16). -/
def runTurn (t : Turn) (s : State) : Result :=
  match t with
  | .host desc data => legalTurn (hostTurn desc data) s
  | .bus addr w sz data => legalTurn (busTurn addr w sz data) s
  | .core => legalTurn coreTurn s
  | .hashUnit ok => legalTurn (hashTurn ok) s
  | .reset => resetTurn s

/-- A port that holds an answer of this purpose: the port itself where it does, else one answered FailR, an answer
R82 admits for every request. -/
def HPort.answered (p : Purpose) (h : HPort) : HPort :=
  if h.answer = some p then h else .rsp p .failR

/-- `s` with a fetched word placed so that the very next step reads it: a bus access or a command as the next turn, a
micro-operation as the Core's turn in the state and under the condition that select it (log entry 2). -/
def State.placeFetched (s : State) : Fetched → State
  | .bus desc data => { s with agenda := .host desc data :: s.agenda }
  | .cmd word => { s with agenda := .host ctrlDesc word :: s.agenda }
  | .seq v =>
    { s with
      seq := SeqState.ofCode v.code
      keyLen := if v.code = 0x2#4 then v.keyLen else s.keyLen
      hport :=
        match v.answer with
        | some p => s.hport.answered p
        | none => s.hport
      agenda := .core :: s.agenda }

end Sys2Proof.Machine
end

