-- ==== Sys2Proof/Machine/Step.lean ====
section
/-! DEFINITION. One step: the next agent takes its turn (00_scope R16, 20_memory R73). -/

namespace Sys2Proof.Machine

/-- One atomic step (R16, R71): the turn that comes next is taken and run. -/
def step (s : State) : Host.Outcome State Fault Refusal := runTurn s.nextTurn s.takeTurn

/-- `s` with the instruction of a table word placed where the very next step reads it. -/
def State.withFetchWord (s : State) (nbits w : Nat) : State := s.placeFetched (tableFetched nbits w)

end Sys2Proof.Machine
end

