-- ==== Sys2Proof/Safety.lean ====
section
/-! DEFINITION. The terms claims are stated in: the function a call computes (00_scope R2, 43_block_assembler R214), the
requests it issues (R216), what holds of the state in each sequencer state of a call (10_state R46, 42_key_normalizer
R180), and the turns under which a call ends (70_reset_and_hazards R279). -/

namespace Sys2Proof.Safety

open Sys2Proof.Machine

/-- The KeyNormalizer's result for a key: an oversized key is hashed, and what is shorter than a block is padded with
zero bytes on the right (42_key_normalizer). -/
def normalizeKey (key : List Byte) : Vector Byte Config.B :=
  if Config.B < key.length then padRight Config.B (Config.H key).toList else padRight Config.B key

/-- `(k0 ^ IPAD_SEQ) || message` (R45). -/
def innerBlock (key msg : List Byte) : List Byte := (xorAll Config.IPAD (normalizeKey key)).toList ++ msg

/-- `H((k0 ^ IPAD_SEQ) || message)` (R41). -/
def innerHash (key msg : List Byte) : Vector Byte Config.L := Config.H (innerBlock key msg)

/-- `(k0 ^ OPAD_SEQ) || inner_digest` (R45). -/
def outerBlock (key msg : List Byte) : List Byte :=
  (xorAll Config.OPAD (normalizeKey key)).toList ++ (innerHash key msg).toList

/-- `H((k0 ^ OPAD_SEQ) || H((k0 ^ IPAD_SEQ) || message))` (R2, R214). -/
def hmac (key msg : List Byte) : Vector Byte Config.L := Config.H (outerBlock key msg)

/-- The key request of a call: one for an oversized key, none for any other (R81). -/
def keyRequests (key : List Byte) : List Issue := if Config.B < key.length then [⟨.key, key⟩] else []

/-- The requests of a call up to INNER (R81). -/
def innerRequests (key msg : List Byte) : List Issue := keyRequests key ++ [⟨.inner, innerBlock key msg⟩]

/-- All the requests of a call, in the order they are issued (R81, R216). -/
def allRequests (key msg : List Byte) : List Issue := innerRequests key msg ++ [⟨.outer, outerBlock key msg⟩]

/-- The history ends with exactly these requests, and `hcnt` counts them (R30, R87). -/
def Counted (s : State) (reqs : List Issue) : Prop :=
  s.hcnt.toNat = reqs.length ∧ ∃ before, s.issues = before ++ reqs

/-- The port holds this request, or an answer R82 admits for it. -/
def Outstanding (p : Purpose) (data : List Byte) (h : HPort) : Prop :=
  h = .req p data ∨ h = .rsp p (.ok (Config.H data)) ∨ h = .rsp p .failR

/-- The four buffers between key and tag hold these values. -/
def Holds (s : State) (k0 ipad opad : Vector Byte Config.B) (inner : Vector Byte Config.L) : Prop :=
  s.k0 = k0 ∧ s.k0Ipad = ipad ∧ s.k0Opad = opad ∧ s.innerDigest = inner

/-- None of them holds anything (R46). -/
def HoldsNothing (s : State) : Prop := Holds s (zeros Config.B) (zeros Config.B) (zeros Config.B) (zeros Config.L)

/-- Both lengths passed CHECK (R170). -/
def Fits (s : State) : Prop := s.keyLen.toNat ≤ Config.KEY_MAX ∧ s.msgLen.toNat ≤ Config.MSG_MAX

/-- A call runs: no error is recorded and no tag is written (R42, R150). -/
def Running (s : State) : Prop := s.errcode = errNone ∧ s.tag = zeros Config.L

/-- What holds in each sequencer state. The reserved codes hold nothing: they are unreachable (R107). -/
def Phase (s : State) : Prop :=
  match s.seq with
  | .idle => s.hport = .empty ∧ HoldsNothing s ∧ Running s ∧ s.hcnt = 0
  | .check => s.hport = .empty ∧ HoldsNothing s ∧ Running s ∧ s.hcnt = 0
  | .norm => s.hport = .empty ∧ HoldsNothing s ∧ Running s ∧ s.hcnt = 0 ∧ Fits s
  | .kwait =>
    Outstanding .key s.key s.hport ∧ HoldsNothing s ∧ Running s ∧ Fits s ∧ Config.B < s.key.length
      ∧ Counted s (keyRequests s.key)
  | .xipad =>
    s.hport = .empty ∧ Holds s (normalizeKey s.key) (zeros _) (zeros _) (zeros _) ∧ Running s ∧ Fits s
      ∧ Counted s (keyRequests s.key)
  | .xopad =>
    s.hport = .empty ∧ Holds s (normalizeKey s.key) (xorAll Config.IPAD (normalizeKey s.key)) (zeros _) (zeros _)
      ∧ Running s ∧ Fits s ∧ Counted s (keyRequests s.key)
  | .inner =>
    s.hport = .empty
      ∧ Holds s (normalizeKey s.key) (xorAll Config.IPAD (normalizeKey s.key))
          (xorAll Config.OPAD (normalizeKey s.key)) (zeros _)
      ∧ Running s ∧ Fits s ∧ Counted s (keyRequests s.key)
  | .iwait =>
    Outstanding .inner (innerBlock s.key s.msg) s.hport
      ∧ Holds s (normalizeKey s.key) (xorAll Config.IPAD (normalizeKey s.key))
          (xorAll Config.OPAD (normalizeKey s.key)) (zeros _)
      ∧ Running s ∧ Fits s ∧ Counted s (innerRequests s.key s.msg)
  | .outer =>
    s.hport = .empty
      ∧ Holds s (normalizeKey s.key) (xorAll Config.IPAD (normalizeKey s.key))
          (xorAll Config.OPAD (normalizeKey s.key)) (innerHash s.key s.msg)
      ∧ Running s ∧ Fits s ∧ Counted s (innerRequests s.key s.msg)
  | .owait =>
    Outstanding .outer (outerBlock s.key s.msg) s.hport
      ∧ Holds s (normalizeKey s.key) (xorAll Config.IPAD (normalizeKey s.key))
          (xorAll Config.OPAD (normalizeKey s.key)) (innerHash s.key s.msg)
      ∧ Running s ∧ Fits s ∧ Counted s (allRequests s.key s.msg)
  | .done => s.hport = .empty ∧ HoldsNothing s ∧ s.errcode = errNone ∧ (s.hcnt = 2 ∨ s.hcnt = 3)
  | .error =>
    s.hport = .empty ∧ HoldsNothing s ∧ s.tag = zeros Config.L
      ∧ ((s.errcode = errInvalidSize ∧ s.hcnt = 0) ∨ (s.errcode = errHashFail ∧ s.hcnt ≠ 0))
  | .reservedC => False
  | .reservedD => False
  | .reservedE => False
  | .reservedF => False

/-- Both buffers are in canonical form and list only indexes they have (R36, R37). -/
structure BuffersOk (s : State) : Prop where
  keyWf : s.keyBuf.wf = true
  keyWithin : s.keyBuf.within Config.KEY_MAX = true
  msgWf : s.msgBuf.wf = true
  msgWithin : s.msgBuf.within Config.MSG_MAX = true

/-- The invariant of the machine. -/
structure Inv (s : State) : Prop where
  buffers : BuffersOk s
  phase : Phase s

/-- A platform access outside the window, which HKB has no step for (R61, I6). -/
def OutsideWindow (addr : Nat) : Prop := ¬(Config.BASE ≤ addr ∧ addr < Config.BASE + 0x20000)

/-- The turn is no reset, and no platform access that misses HKB. -/
def Undisturbed : Turn → Prop
  | .host _ _ => True
  | .bus addr _ _ _ => ¬OutsideWindow addr
  | .core => True
  | .hashUnit _ => True
  | .reset => False

/-- Some turns in which the Core takes one (weak fairness, R279) and, where HASH_LIVE, the HashUnit takes one (R86,
D26). HASH_LIVE is open, so it is an argument. -/
def FairRound (hashLive : Bool) (ts : List Turn) : Prop :=
  .core ∈ ts ∧ (hashLive = true → ∃ ok, .hashUnit ok ∈ ts) ∧ ∀ t ∈ ts, Undisturbed t

/-- How many Core and HashUnit steps are left in a call, at the most (R279). -/
def stepsLeft (s : State) : Nat :=
  match s.seq with
  | .check => 12
  | .norm => 11
  | .kwait => if s.hport.answer = some .key then 9 else 10
  | .xipad => 8
  | .xopad => 7
  | .inner => 6
  | .iwait => if s.hport.answer = some .inner then 4 else 5
  | .outer => 3
  | .owait => if s.hport.answer = some .outer then 1 else 2
  | .idle | .done | .error | .reservedC | .reservedD | .reservedE | .reservedF => 0

/-- The turns of a call that is never interrupted: 8 Core turns for a key of at most one block, 9 for an oversized one,
and an Ok answer to each request (R279). -/
def callTurns (oversized : Bool) : List Turn :=
  [.core, .core] ++ (if oversized then [.hashUnit true, .core] else [])
    ++ [.core, .core, .core, .hashUnit true, .core, .core, .hashUnit true, .core]

/-- `n` steps from `s` end its call in DONE, at `t`, and not before (R214). -/
def Completes (s : State) (n : Nat) (t : State) : Prop :=
  core.run n s = .next t ∧ (∀ m u, m < n → core.run m s = .next u → u.busy = true) ∧ t.seq = .done

/-- All call-scoped state is zero (R46, R211). -/
def Wiped (s : State) : Prop :=
  (∀ a, s.keyBuf.read a = 0) ∧ (∀ a, s.msgBuf.read a = 0) ∧ s.keyLen = 0 ∧ s.msgLen = 0 ∧ HoldsNothing s

/-- Every piece of HKB's state is at its reset value, whatever is around it (R47). -/
def AtReset (s : State) : Prop :=
  s.seq = .idle ∧ s.ign = false ∧ s.errcode = 0 ∧ s.hcnt = 0 ∧ Wiped s ∧ s.tag = zeros Config.L ∧ s.hport = .empty

/-- What lies around HKB is the same (R80, R16): the history, the Host's last reply, the turns to come. -/
def SameAround (s t : State) : Prop :=
  t.issues = s.issues ∧ t.reply = s.reply ∧ t.agenda = s.agenda ∧ t.tick = s.tick

/-- Fail(code) happened between `s` and `t` (R212, R246): all call-scoped state is zero, the code is recorded, the
state is ERROR, and `tag`, `hcnt`, `ign` and what lies around HKB are kept. -/
def Failed (code : BitVec 4) (s t : State) : Prop :=
  Wiped t ∧ t.errcode = code ∧ t.seq = .error ∧ t.tag = s.tag ∧ t.hcnt = s.hcnt ∧ t.ign = s.ign ∧ SameAround s t

/-- A write of `n` bytes (R138, R140, R142). -/
def IsWrite (n : Nat) (off : Offset) (data : Word) (i : Instr) : Prop :=
  (n = 1 ∧ i = .wr8 off data) ∨ (n = 2 ∧ i = .wr16 off data) ∨ (n = 4 ∧ i = .wr32 off data)

/-- The offset lies in the key window or the message window (R60). -/
def InWindow (off : Offset) : Prop :=
  (0x01000 ≤ off.toNat ∧ off.toNat ≤ 0x01FFF) ∨ (0x10000 ≤ off.toNat ∧ off.toNat ≤ 0x1FFFF)

/-- The guarded writes (R158). A window write is one only where the access check lets it through (R130, R245). -/
def Guarded : Instr → Prop
  | .wr8 off _ => InWindow off
  | .wr16 off _ => InWindow off ∧ off.toNat % 2 = 0
  | .wr32 off data =>
    (InWindow off ∧ off.toNat % 4 = 0) ∨ off = 0x00018#17 ∨ off = 0x0001C#17
      ∨ (off = 0x00010#17 ∧ (cmdCode data = 0x1#4 ∨ cmdCode data = 0x2#4))
  | .wr32KeyLen _ => True
  | .wr32MsgLen _ => True
  | .compute _ => True
  | .clear _ => True
  | .rd8 _ | .rd16 _ | .rd32 _ | .busIllegal _ _ _ | .nop _ | .rsvd _ _ => False
  | .check | .normShort | .normExact | .normLong | .kwait => False
  | .xipad | .xopad | .inner | .iwait | .outer | .owait | .seqRsvd _ => False

/-- The instruction is one of the Host's: a bus operation or a command (R100). -/
def FromHost : Instr → Prop
  | .rd8 _ | .rd16 _ | .rd32 _ | .wr8 _ _ | .wr16 _ _ | .wr32 _ _ => True
  | .wr32KeyLen _ | .wr32MsgLen _ | .busIllegal _ _ _ => True
  | .nop _ | .compute _ | .clear _ | .rsvd _ _ => True
  | .check | .normShort | .normExact | .normLong | .kwait => False
  | .xipad | .xopad | .inner | .iwait | .outer | .owait | .seqRsvd _ => False

/-- The Host's instruction that a turn makes, if it makes one. -/
def hostInstr : Turn → Option Instr
  | .host desc data => some (decodeBus desc data)
  | .bus addr w sz data => some (decodeBus (busDesc addr w sz) data)
  | .core => none
  | .hashUnit _ => none
  | .reset => none

/-- The next turn is one of the events that zero the tag, ERRCODE and HCNT: an accepted COMPUTE or CLEAR, or a reset
(R29, R30, R42). -/
def Restarts (s : State) : Prop :=
  s.nextTurn = .reset
    ∨ (s.busy = false
        ∧ ∃ rest, hostInstr s.nextTurn = some (.compute rest) ∨ hostInstr s.nextTurn = some (.clear rest))

/-- The states a Core step may lead to from each state (R26, R106, and the rules of 42 and 43). -/
def successors : SeqState → List SeqState
  | .check => [.norm, .error]
  | .norm => [.xipad, .kwait]
  | .kwait => [.xipad, .error]
  | .xipad => [.xopad]
  | .xopad => [.inner]
  | .inner => [.iwait]
  | .iwait => [.outer, .error]
  | .outer => [.owait]
  | .owait => [.done, .error]
  | .idle | .done | .error | .reservedC | .reservedD | .reservedE | .reservedF => []

/-- How a word of the Host's travels on the bus: a command as a WR32 to CTRL (R104). -/
def onBus : Fetched → Option (Desc × Word)
  | .bus desc data => some (desc, data)
  | .cmd word => some (ctrlDesc, word)
  | .seq _ => none

/-- Two states agree on everything the Host can read (R49): STATUS, the lengths and the tag. -/
def SameVisible (s t : State) : Prop :=
  s.seq = t.seq ∧ s.ign = t.ign ∧ s.errcode = t.errcode ∧ s.hcnt = t.hcnt ∧ s.keyLen = t.keyLen ∧ s.msgLen = t.msgLen
    ∧ s.tag = t.tag

end Sys2Proof.Safety
end

