-- ==== Sys2Proof/Certificates/Slice0/Obligations.lean ====
section
/-! DEFINITION. The statements for the provers, in the order of the spec's files. `nextTurn` and `takeTurn` are the
model's form of the free schedule of R16 (log entry 1), `reply` of the response of R62 (log entry 3), and `issues` of
the history of Issue events of R80 (log entry 4). -/

open Sys2Proof Sys2Proof.Machine Sys2Proof.Safety

/-! ### Reset and the step -/

/-- R47: the reset values of every piece of state; the hardwired registers read their constants in every state, and the
pad bytes are constants. -/
def Obligations.ResetHoldsTheListedValues : Prop :=
  AtReset State.reset ∧ State.reset.status = 0x00000000#32 ∧
    ∀ s : State, s.readWord 0x00000#17 = 0x484D4143#32 ∧ s.readWord 0x00004#17 = 0x00200040#32
      ∧ s.readWord 0x00008#17 = 0x00001000#32 ∧ s.readWord 0x0000C#17 = 0x00010000#32
      ∧ Config.IPAD = 0x36#8 ∧ Config.OPAD = 0x5C#8

/-- A reset, met in any state at all, sets every piece of state to its reset value, and the HashUnit then has no request
to answer; the hardwired registers read as before (70_reset_and_hazards, section 1). That the reset also keeps the Issue
history and the last reply is the model's choice, not the spec's (log entries 4 and 3), and that it keeps the turns to
come is the model's form of the schedule (log entry 1). -/
def Obligations.ResetStepResetsEverything : Prop :=
  ∀ s : State, s.nextTurn = .reset →
    ∃ t, step s = .next t ∧ AtReset t ∧ t.status = 0x00000000#32 ∧ SameAround s.takeTurn t
      ∧ (∀ ok, t.hashAnswer ok = t) ∧ ∀ off : Offset, off.toNat < 0x010 → t.readWord off = s.readWord off

/-- A Host turn runs the instruction its words decode to, from the state the turn is taken in (R16, R130). -/
def Obligations.StepRunsTheHostAccess : Prop :=
  ∀ (s : State) (desc : Desc) (data : Word) (i : Instr),
    s.nextTurn = .host desc data → errReserved s.errcode = false → s.seq.reserved = false →
    decode (.bus desc data) = .instr i → step s = exec i s.takeTurn

/-- A Core turn runs the micro-operation that state and condition decode to (R106). That a Core turn where none is
selected is a step that only takes the turn is the model's choice, not the spec's (log entry 1). -/
def Obligations.StepRunsTheMicroOperation : Prop :=
  ∀ s : State, s.nextTurn = .core → errReserved s.errcode = false →
    (∀ i, decode (.seq s.seqView) = .instr i → step s = exec i s.takeTurn)
      ∧ (∀ why, decode (.seq s.seqView) = .rejected why → step s = .next s.takeTurn)

/-- R61: BASE is a multiple of 0x20000; an access inside the window reaches HKB at its offset; outside HKB has no step
for it; and an access whose bytes would cross the window's end gets SLVERR. -/
def Obligations.PlatformAccessUsesItsOffset : Prop :=
  Config.BASE % 0x20000 = 0 ∧
    ∀ (s : State) (addr : Nat) (w : Bool) (sz : BitVec 2) (data : Word),
      s.nextTurn = .bus addr w sz data → errReserved s.errcode = false → s.seq.reserved = false →
      (addr < Config.BASE ∨ Config.BASE + 0x20000 ≤ addr → step s = .refused (.outsideWindow addr))
        ∧ (∀ off : Offset, addr = Config.BASE + off.toNat →
            step s = exec (decodeBus (mkDesc w sz off) data) s.takeTurn)
        ∧ (addr < Config.BASE + 0x20000 → Config.BASE + 0x20000 < addr + 2 ^ sz.toNat → sz ≠ 0b11#2 →
            Config.BASE ≤ addr →
            ∃ t, step s = .next t ∧ t = { s.takeTurn with reply := some ⟨.slverr, if w then none else some 0⟩ })

/-! ### Encoding -/

/-- Words written out from R101-R107 and the desc column of 95_test_vectors decode to what they stand for. -/
def Obligations.WordsOfTheSpecDecode : Prop :=
  decode (.bus 0x01000#20 0) = .instr (.rd8 0x01000#17)
    ∧ decode (.bus 0x30002#20 0) = .instr (.rd16 0x10002#17)
    ∧ decode (.bus 0x40014#20 0) = .instr (.rd32 0x00014#17)
    ∧ decode (.bus 0x81003#20 0x65#32) = .instr (.wr8 0x01003#17 0x65#32)
    ∧ decode (.bus 0xB0000#20 0x4869#32) = .instr (.wr16 0x10000#17 0x4869#32)
    ∧ decode (.bus 0xC1000#20 0x4A656665#32) = .instr (.wr32 0x01000#17 0x4A656665#32)
    ∧ decode (.bus 0xC0018#20 20#32) = .instr (.wr32KeyLen 20#32)
    ∧ decode (.bus 0xE0010#20 1#32) = .instr (.busIllegal true 0x00010#17 1#32)
    ∧ decode (.bus 0xC0010#20 0xFFFFFFF1#32) = .instr (.compute 0xFFFFFFF#28)
    ∧ decode (.cmd 0x00000007#32) = .instr (.rsvd 0x7#4 0#28)
    ∧ decode (.seq ⟨0x2#4, 65#32, none⟩) = .instr .normLong
    ∧ decode (.seq ⟨0x7#4, 0#32, some .inner⟩) = .instr .iwait
    ∧ decode (.seq ⟨0x7#4, 0#32, some .key⟩) = .rejected .holding
    ∧ decode (.seq ⟨0xA#4, 0#32, none⟩) = .rejected .noMicroOp

/-- Decoding the words of any well-formed instruction gives it back, with every operand at every value. -/
def Obligations.DecodeOfEncode : Prop :=
  ∀ i : Instr, i.wellFormed = true → decode (encode i) = .instr i

/-- Every word of every source that decodes gives a well-formed instruction, and encoding that gives the word back: a
write's and a command's whole, a read's descriptor. -/
def Obligations.EncodeOfDecode : Prop :=
  (∀ (desc : Desc) (data : Word), (decodeBus desc data).wellFormed = true
      ∧ (descW desc = true ∨ descSz desc = 0b11#2 → onBus (encode (decodeBus desc data)) = some (desc, data))
      ∧ (descW desc = false → descSz desc ≠ 0b11#2 → encode (decodeBus desc data) = .bus desc 0))
    ∧ (∀ word : Word, (decodeCmd word).wellFormed = true ∧ encode (decodeCmd word) = .cmd word)
    ∧ (∀ (v : SeqView) (i : Instr), decode (.seq v) = .instr i → i.wellFormed = true)

/-- A WR32 at CTRL, KEY_LEN or MSG_LEN does what the instruction its row names does (R142). -/
def Obligations.WordWriteAgreesWithItsRow : Prop :=
  ∀ (s : State) (data : Word),
    exec (.wr32 0x00010#17 data) s = exec (decodeCmd data) s
      ∧ exec (.wr32 0x00018#17 data) s = exec (.wr32KeyLen data) s
      ∧ exec (.wr32 0x0001C#17 data) s = exec (.wr32MsgLen data) s

/-! ### The access check and the reads -/

/-- R64: SLVERR is given to exactly the illegal size, the misaligned and the narrow control accesses; it changes no
state, and a read then returns 0. -/
def Obligations.SlverrExactly : Prop :=
  ∀ (w : Bool) (sz : BitVec 2) (off : Offset) (data : Word) (s : State),
    ∃ t, exec (decodeBus (mkDesc w sz off) data) s = .next t
      ∧ (sz = 0b11#2 ∨ off.toNat % 2 ^ sz.toNat ≠ 0 ∨ (off.toNat < 0x01000 ∧ sz ≠ 0b10#2) →
          t = { s with reply := some ⟨.slverr, if w then none else some 0⟩ })
      ∧ (¬(sz = 0b11#2 ∨ off.toNat % 2 ^ sz.toNat ≠ 0 ∨ (off.toNat < 0x01000 ∧ sz ≠ 0b10#2)) →
          ∃ v, t.reply = some ⟨.okay, v⟩ ∧ (v = none ↔ w = true))

/-- R144: an access with SZ = 0b11 is BUS.ILLEGAL, W either; it always gets SLVERR and has no effect, while BUSY too. -/
def Obligations.IllegalSizeAnswersSlverr : Prop :=
  (∀ (w : Bool) (off : Offset) (data : Word) (s : State),
      exec (.busIllegal w off data) s = .next { s with reply := some ⟨.slverr, if w then none else some 0⟩ })
    ∧ ∀ (desc : Desc) (data : Word), descSz desc = 0b11#2 →
        decode (.bus desc data) = .instr (.busIllegal (descW desc) (descOff desc) data)

/-- R66: an aligned read of any size in the window region reads 0 with OKAY and has no side effect, whatever the windows
hold. -/
def Obligations.WindowReadsGiveZero : Prop :=
  ∀ (off : Offset) (s : State), 0x01000 ≤ off.toNat →
    exec (.rd8 off) s = .next { s with reply := some ⟨.okay, some 0⟩ }
      ∧ (off.toNat % 2 = 0 → exec (.rd16 off) s = .next { s with reply := some ⟨.okay, some 0⟩ })
      ∧ (off.toNat % 4 = 0 → exec (.rd32 off) s = .next { s with reply := some ⟨.okay, some 0⟩ })

/-- An aligned RD32 reads what its offset names (R22-R25, R31-R35, R136): four tag bytes big-endian for TAG0 to TAG7,
and 0 for TAG8 to TAG15, CTRL, the reserved offsets and both windows. -/
def Obligations.WordReadByTheMap : Prop :=
  ∀ (off : Offset) (s : State), off.toNat % 4 = 0 →
    exec (.rd32 off) s = .next { s with reply := some ⟨.okay, some (
      if off.toNat = 0x000 then 0x484D4143#32
      else if off.toNat = 0x004 then 0x00200040#32
      else if off.toNat = 0x008 then 0x00001000#32
      else if off.toNat = 0x00C then 0x00010000#32
      else if off.toNat = 0x014 then s.status
      else if off.toNat = 0x018 then s.keyLen
      else if off.toNat = 0x01C then s.msgLen
      else if 0x040 ≤ off.toNat ∧ off.toNat < 0x060 then
        be4 (s.tag.toList.getD (off.toNat - 0x040) 0) (s.tag.toList.getD (off.toNat - 0x040 + 1) 0)
          (s.tag.toList.getD (off.toNat - 0x040 + 2) 0) (s.tag.toList.getD (off.toNat - 0x040 + 3) 0)
      else 0#32)⟩ }

/-- R32: STATUS is read at 0x014, a write there does nothing, every field stands where the layout puts it, the reserved
bits are 0, and the worked value. -/
def Obligations.StatusHoldsItsFields : Prop :=
  ∀ (s : State) (data : Word),
    exec (.rd32 0x00014#17) s = .next { s with reply := some ⟨.okay, some s.status⟩ }
      ∧ exec (.wr32 0x00014#17 data) s = .next { s with reply := some ⟨.okay, none⟩ }
      ∧ s.status.extractLsb' 0 4 = s.seq.code
      ∧ s.status.getLsbD 4 = (decide (1 ≤ s.seq.code.toNat) && decide (s.seq.code.toNat ≤ 9))
      ∧ s.status.getLsbD 5 = decide (s.seq = .done)
      ∧ s.status.getLsbD 6 = decide (s.seq = .error)
      ∧ s.status.getLsbD 7 = s.ign
      ∧ s.status.extractLsb' 8 4 = s.errcode
      ∧ s.status.extractLsb' 12 2 = s.hcnt
      ∧ s.status.extractLsb' 14 18 = 0#18
      ∧ (s.seq = .done → s.ign = false → s.errcode = 0 → s.hcnt = 2 → s.status = 0x0000202A#32)

/-! ### The writes -/

/-- R68: an aligned write in the key window stores its bytes big-endian at ascending indexes and changes nothing else;
while BUSY it is ignored under R158. -/
def Obligations.KeyWindowTakesTheBytes : Prop :=
  ∀ (n : Nat) (off : Offset) (data : Word) (i : Instr) (s : State),
    IsWrite n off data i → 0x01000 ≤ off.toNat → off.toNat ≤ 0x01FFF → off.toNat % n = 0 → s.keyBuf.wf = true →
    (s.busy = false →
      ∃ t, exec i s = .next t ∧ t = { s with keyBuf := t.keyBuf, reply := some ⟨.okay, none⟩ }
        ∧ (∀ k, k < n → t.keyBuf.read (off.toNat - 0x01000 + k) = data.extractLsb' (8 * (n - 1 - k)) 8)
        ∧ (∀ a, a < off.toNat - 0x01000 ∨ off.toNat - 0x01000 + n ≤ a → t.keyBuf.read a = s.keyBuf.read a)
        ∧ t.keyBuf.wf = true)
      ∧ (s.busy = true → exec i s = .next { s with ign := true, reply := some ⟨.okay, none⟩ })

/-- R69: the same for the message window. -/
def Obligations.MessageWindowTakesTheBytes : Prop :=
  ∀ (n : Nat) (off : Offset) (data : Word) (i : Instr) (s : State),
    IsWrite n off data i → 0x10000 ≤ off.toNat → off.toNat % n = 0 → s.msgBuf.wf = true →
    (s.busy = false →
      ∃ t, exec i s = .next t ∧ t = { s with msgBuf := t.msgBuf, reply := some ⟨.okay, none⟩ }
        ∧ (∀ k, k < n → t.msgBuf.read (off.toNat - 0x10000 + k) = data.extractLsb' (8 * (n - 1 - k)) 8)
        ∧ (∀ a, a < off.toNat - 0x10000 ∨ off.toNat - 0x10000 + n ≤ a → t.msgBuf.read a = s.msgBuf.read a)
        ∧ t.msgBuf.wf = true)
      ∧ (s.busy = true → exec i s = .next { s with ign := true, reply := some ⟨.okay, none⟩ })

/-- A 4-byte write in a window has the effect of its four 1-byte writes at off to off+3 (R67), BUSY or not. -/
def Obligations.WideWriteIsFourByteWrites : Prop :=
  ∀ (off : Offset) (data : Word) (s : State), InWindow off → off.toNat % 4 = 0 →
    ∃ t1 t2 t3 t,
      exec (.wr8 off (data >>> 24)) s = .next t1
        ∧ exec (.wr8 (off + 1) (data >>> 16)) t1 = .next t2
        ∧ exec (.wr8 (off + 2) (data >>> 8)) t2 = .next t3
        ∧ exec (.wr8 (off + 3) data) t3 = .next t
        ∧ exec (.wr32 off data) s = .next t

/-- R148: a KEY_LEN or MSG_LEN write sets the whole 32-bit length, any value at all, and while BUSY it only sets IGN. -/
def Obligations.LengthWriteSetsTheLength : Prop :=
  ∀ (data : Word) (s : State),
    (s.busy = false →
      exec (.wr32KeyLen data) s = .next { s with keyLen := data, reply := some ⟨.okay, none⟩ }
        ∧ exec (.wr32MsgLen data) s = .next { s with msgLen := data, reply := some ⟨.okay, none⟩ })
      ∧ (s.busy = true →
        exec (.wr32KeyLen data) s = .next { s with ign := true, reply := some ⟨.okay, none⟩ }
          ∧ exec (.wr32MsgLen data) s = .next { s with ign := true, reply := some ⟨.okay, none⟩ })

/-- An aligned write at a read-only register or a reserved offset is ignored with OKAY and no flag, while BUSY too
(R70, R142). -/
def Obligations.ReadOnlyAndReservedWritesDoNothing : Prop :=
  ∀ (n : Nat) (off : Offset) (data : Word) (i : Instr) (s : State),
    IsWrite n off data i → off.toNat % n = 0 → (off.toNat < 0x01000 → n = 4) → ¬InWindow off →
    off.toNat ≠ 0x010 → off.toNat ≠ 0x018 → off.toNat ≠ 0x01C →
    exec i s = .next { s with reply := some ⟨.okay, none⟩ }

/-- R158: a guarded write made while BUSY has no effect except IGN, and its response is OKAY. -/
def Obligations.GuardedWriteWhileBusyIsLost : Prop :=
  ∀ (i : Instr) (s : State), Guarded i → s.busy = true →
    exec i s = .next { s with ign := true, reply := some ⟨.okay, none⟩ }

/-! ### The commands -/

/-- COMPUTE, met in IDLE, DONE or ERROR, starts a call (R150). -/
def Obligations.ComputeStartsACall : Prop :=
  ∀ (rest : BitVec 28) (s : State), s.seq = .idle ∨ s.seq = .done ∨ s.seq = .error →
    exec (.compute rest) s =
      .next { s with
        tag := Vector.replicate 32 0#8, errcode := 0#4, hcnt := 0#2, seq := .check, reply := some ⟨.okay, none⟩ }

/-- CLEAR, met in IDLE, DONE or ERROR, zeroes the call-scoped state, the tag and every flag, and enters IDLE; the hash
port, the history and the turns are not touched; and from a state of the invariant all of HKB is at its reset value
(R152). That CLEAR keeps the history is the model's choice (log entry 4). -/
def Obligations.ClearRestoresReset : Prop :=
  ∀ (rest : BitVec 28) (s : State), s.seq = .idle ∨ s.seq = .done ∨ s.seq = .error →
    ∃ t, exec (.clear rest) s = .next t ∧ t.status = 0x00000000#32 ∧ Wiped t ∧ t.tag = Vector.replicate 32 0#8
      ∧ t.hport = s.hport ∧ t.issues = s.issues ∧ t.agenda = s.agenda ∧ t.tick = s.tick
      ∧ t.reply = some ⟨.okay, none⟩ ∧ (Inv s → AtReset t)

/-- NOP changes nothing, while BUSY too, and a reserved command sets IGN and nothing else in every state (R154,
R156). -/
def Obligations.NopAndReservedCommands : Prop :=
  ∀ (cmd : BitVec 4) (rest : BitVec 28) (s : State),
    exec (.nop rest) s = .next { s with reply := some ⟨.okay, none⟩ }
      ∧ exec (.rsvd cmd rest) s = .next { s with ign := true, reply := some ⟨.okay, none⟩ }

/-! ### The KeyNormalizer -/

/-- CHECK goes on to NORM exactly when both lengths fit, unsigned, and else fails with INVALID_SIZE without issuing a
request (R170). -/
def Obligations.CheckComparesTheLengths : Prop :=
  ∀ s : State, s.seq = .check →
    (s.keyLen.toNat ≤ 4096 ∧ s.msgLen.toNat ≤ 65536 → exec .check s = .next { s with seq := .norm })
      ∧ (4096 < s.keyLen.toNat ∨ 65536 < s.msgLen.toNat →
          ∃ t, exec .check s = .next t ∧ Failed 1#4 s t ∧ t.hport = s.hport)

/-- NORM.SHORT pads the key with zero bytes to one block and changes nothing else but the state (R172). -/
def Obligations.ShortKeyIsPadded : Prop :=
  ∀ s : State, s.seq = .norm → s.keyLen.toNat < 64 →
    ∃ t, exec .normShort s = .next t ∧ t = { s with k0 := t.k0, seq := .xipad }
      ∧ t.k0.toList = s.key ++ List.replicate (64 - s.keyLen.toNat) 0#8
      ∧ ∀ i (h : i < 64), t.k0[i] = if i < s.keyLen.toNat then s.keyBuf.read i else 0#8

/-- R173: a key of length 0 normalizes to the zero block, as a key of B zero bytes does, and no error; two calls with the
same message, one with each of these keys, give the same tag. -/
def Obligations.EmptyKeyIsAZeroBlock : Prop :=
  (∀ s : State, s.seq = .norm → s.keyLen = 0#32 →
      ∃ t, exec .normShort s = .next t ∧ t.k0 = Vector.replicate 64 0#8 ∧ t.seq = .xipad)
    ∧ (∀ s : State, s.seq = .norm → s.keyLen = 64#32 → (∀ i, i < 64 → s.keyBuf.read i = 0#8) →
      ∃ t, exec .normExact s = .next t ∧ t.k0 = Vector.replicate 64 0#8 ∧ t.seq = .xipad)
    ∧ ∀ (a b t u : State) (n m : Nat), Inv a → Inv b → a.seq = .check → b.seq = .check → a.keyLen = 0#32 →
        b.keyLen = 64#32 → (∀ i, i < 64 → b.keyBuf.read i = 0#8) → a.msg = b.msg → Completes a n t → Completes b m u →
        t.tag = u.tag

/-- NORM.EXACT copies the key and changes nothing else but the state (R174). -/
def Obligations.ExactKeyIsCopied : Prop :=
  ∀ s : State, s.seq = .norm → s.keyLen.toNat = 64 →
    ∃ t, exec .normExact s = .next t ∧ t = { s with k0 := t.k0, seq := .xipad }
      ∧ ∀ i (h : i < 64), t.k0[i] = s.keyBuf.read i

/-- NORM.LONG issues the whole key, with nothing added, counts the request and waits (R80, R176). -/
def Obligations.LongKeyIsIssued : Prop :=
  ∀ s : State, s.seq = .norm → 64 < s.keyLen.toNat → s.keyLen.toNat ≤ 4096 → s.hport = .empty → s.hcnt ≠ 3#2 →
    exec .normLong s = .next { s with
      hport := .req .key ((List.range s.keyLen.toNat).map s.keyBuf.read)
      hcnt := s.hcnt + 1#2
      issues := s.issues ++ [⟨.key, (List.range s.keyLen.toNat).map s.keyBuf.read⟩]
      seq := .kwait }

/-- KWAIT consumes the key's answer: a digest goes into `k0`, padded with 32 zero bytes; FailR fails with HASH_FAIL;
without an answer the Core holds (R178). -/
def Obligations.KeyHashIsConsumed : Prop :=
  ∀ s : State, s.seq = .kwait →
    (∀ d, s.hport = .rsp .key (.ok d) →
      ∃ t, exec .kwait s = .next t ∧ t = { s with k0 := t.k0, hport := .empty, seq := .xipad }
        ∧ t.k0.toList = d.toList ++ List.replicate 32 0#8)
      ∧ (s.hport = .rsp .key .failR → ∃ t, exec .kwait s = .next t ∧ Failed 2#4 s t ∧ t.hport = .empty)
      ∧ ((∀ r, s.hport ≠ .rsp .key r) → exec .kwait s = .next s)

/-- R182: the `k0` of an oversized key whose hash is answered Ok is that of the key `H(key) || zeros(B - L)`, taken by
NORM.EXACT, and two calls with the same message, one with each of these keys, give the same tag. -/
def Obligations.OversizedKeyEquivalence : Prop :=
  ∀ (s u : State) (d : Vector Byte 32), Inv s → s.seq = .kwait → s.hport = .rsp .key (.ok d) →
    u.seq = .norm → u.keyLen = 64#32 → u.key = (Config.H s.key).toList ++ List.replicate 32 0#8 →
    (∃ s' u', exec .kwait s = .next s' ∧ exec .normExact u = .next u' ∧ s'.k0 = u'.k0
        ∧ s'.seq = .xipad ∧ u'.seq = .xipad)
      ∧ ∀ (a b t v : State) (n m : Nat), Inv a → Inv b → a.seq = .check → b.seq = .check → a.key = s.key →
          b.key = u.key → a.msg = b.msg → Completes a n t → Completes b m v → t.tag = v.tag

/-- R180: whenever the Core enters XIPAD, `k0` is one block, is the KeyNormalizer's function of the key and of H alone,
and one request was issued if the key is oversized, none otherwise. -/
def Obligations.KeyNormalizerContract : Prop :=
  ∀ s t : State, Inv s → step s = .next t → s.seq ≠ .xipad → t.seq = .xipad →
    t.k0.toList.length = 64 ∧ t.k0 = normalizeKey t.key
      ∧ t.hcnt = (if 64 < t.keyLen.toNat then 1#2 else 0#2)

/-- Only `key_buf[0:key_len)` is read by the KeyNormalizer: other bytes at and above `key_len` change nothing but
themselves (R184). -/
def Obligations.BytesPastTheKeyDoNotMatter : Prop :=
  ∀ (i : Instr) (s t : State) (m : Memory), i = .normShort ∨ i = .normExact ∨ i = .normLong →
    (∀ a, a < s.keyLen.toNat → m.read a = s.keyBuf.read a) → exec i s = .next t →
    exec i { s with keyBuf := m } = .next { t with keyBuf := m }

/-! ### The block assembler -/

/-- XIPAD and XOPAD XOR every byte of `k0` with 0x36 and 0x5c at its own index, and change nothing else but the state
(R200, R202, R203). -/
def Obligations.PadsAreXoredByteByByte : Prop :=
  (∀ s : State, s.seq = .xipad →
      ∃ t, exec .xipad s = .next t ∧ t = { s with k0Ipad := t.k0Ipad, seq := .xopad }
        ∧ ∀ i (h : i < 64), t.k0Ipad[i] = s.k0[i] ^^^ 0x36#8)
    ∧ (∀ s : State, s.seq = .xopad →
      ∃ t, exec .xopad s = .next t ∧ t = { s with k0Opad := t.k0Opad, seq := .inner }
        ∧ ∀ i (h : i < 64), t.k0Opad[i] = s.k0[i] ^^^ 0x5c#8)

/-- INNER issues `k0_ipad || msg_buf[0:msg_len)`, counts the request and waits (R80, R204). -/
def Obligations.InnerBlockIsIssued : Prop :=
  ∀ s : State, s.seq = .inner → s.msgLen.toNat ≤ 65536 → s.hport = .empty → s.hcnt ≠ 3#2 →
    exec .inner s = .next { s with
      hport := .req .inner (s.k0Ipad.toList ++ (List.range s.msgLen.toNat).map s.msgBuf.read)
      hcnt := s.hcnt + 1#2
      issues := s.issues ++ [⟨.inner, s.k0Ipad.toList ++ (List.range s.msgLen.toNat).map s.msgBuf.read⟩]
      seq := .iwait }

/-- IWAIT consumes the inner answer: a digest is kept, FailR fails with HASH_FAIL, and without an answer the Core holds
(R206). -/
def Obligations.InnerHashIsConsumed : Prop :=
  ∀ s : State, s.seq = .iwait →
    (∀ d, s.hport = .rsp .inner (.ok d) →
      exec .iwait s = .next { s with innerDigest := d, hport := .empty, seq := .outer })
      ∧ (s.hport = .rsp .inner .failR → ∃ t, exec .iwait s = .next t ∧ Failed 2#4 s t ∧ t.hport = .empty)
      ∧ ((∀ r, s.hport ≠ .rsp .inner r) → exec .iwait s = .next s)

/-- OUTER issues `k0_opad || inner_digest`, 96 bytes, counts the request and waits (R80, R208). -/
def Obligations.OuterBlockIsIssued : Prop :=
  ∀ s : State, s.seq = .outer → s.hport = .empty → s.hcnt ≠ 3#2 →
    exec .outer s = .next { s with
      hport := .req .outer (s.k0Opad.toList ++ s.innerDigest.toList)
      hcnt := s.hcnt + 1#2
      issues := s.issues ++ [⟨.outer, s.k0Opad.toList ++ s.innerDigest.toList⟩]
      seq := .owait }
      ∧ (s.k0Opad.toList ++ s.innerDigest.toList).length = 96

/-- OWAIT consumes the outer answer: a digest becomes the tag and all call-scoped state is zeroed in that one step;
FailR fails with HASH_FAIL and leaves the tag; without an answer the Core holds (R210, R211). -/
def Obligations.OuterHashGivesTheTag : Prop :=
  ∀ s : State, s.seq = .owait →
    (∀ d, s.hport = .rsp .outer (.ok d) →
      ∃ t, exec .owait s = .next t ∧ Wiped t ∧ t.tag = d ∧ t.seq = .done ∧ t.hport = .empty
        ∧ t.ign = s.ign ∧ t.errcode = s.errcode ∧ t.hcnt = s.hcnt ∧ SameAround s t)
      ∧ (s.hport = .rsp .outer .failR → ∃ t, exec .owait s = .next t ∧ Failed 2#4 s t ∧ t.hport = .empty)
      ∧ ((∀ r, s.hport ≠ .rsp .outer r) → exec .owait s = .next s)

/-! ### Reserved codes, the hash port -/

/-- R107: no step enters a reserved state code, a Core turn that meets one is refused and takes no step, and SEQ.RSVD
refuses in every state. -/
def Obligations.ReservedCodesAreRefused : Prop :=
  (∀ s t : State, s.seq.reserved = false → step s = .next t → t.seq.reserved = false)
    ∧ (∀ s : State, s.seq.reserved = true → errReserved s.errcode = false → s.nextTurn = .core →
        step s = .refused (.reservedSeqState s.seq))
    ∧ ∀ (code : BitVec 4) (s : State), exec (.seqRsvd code) s = .refused (.reservedSeqState (SeqState.ofCode code))

/-- Every turn but a reset is refused where ERRCODE is 3 to 15, which no step ever writes (I10). -/
def Obligations.ReservedErrcodeIsRefused : Prop :=
  (∀ s : State, errReserved s.errcode = true → s.nextTurn ≠ .reset →
      step s = .refused (.reservedErrcode s.errcode))
    ∧ ∀ s t : State, errReserved s.errcode = false → step s = .next t → errReserved t.errcode = false

/-- The HashUnit answers exactly a request, with the digest `H(data)` or FailR, and nothing else of the state changes
(20_memory, section 4). That a HashUnit turn with no request is a step that only takes the turn is the model's choice, not
the spec's (log entry 1). -/
def Obligations.HashUnitAnswersARequest : Prop :=
  ∀ (s : State) (ok : Bool), s.nextTurn = .hashUnit ok → errReserved s.errcode = false →
    (∀ p data, s.hport = .req p data →
      step s = .next { s.takeTurn with hport := .rsp p (if ok then .ok (Config.H data) else .failR) })
      ∧ ((∀ p data, s.hport ≠ .req p data) → step s = .next s.takeTurn)

/-- As long as only the Core takes turns, a wait state whose request is not answered holds, for any number of turns
(R83, R86). That each such turn is a step that only takes the turn is the model's choice, not the spec's (log entry
1). -/
def Obligations.CoreHoldsWithoutAnAnswer : Prop :=
  ∀ (s : State) (k : Nat) (rest : List Turn) (p : Purpose) (data : List Byte),
    s.seq = .kwait ∨ s.seq = .iwait ∨ s.seq = .owait → s.hport = .req p data → errReserved s.errcode = false →
    s.agenda = List.replicate k .core ++ rest → core.run k s = .next { s with agenda := rest }

/-! ### Frames -/

/-- A host read, and an access of illegal size, change nothing but the reply (R72, R144). -/
def Obligations.HostReadsChangeNothing : Prop :=
  ∀ (i : Instr) (s t : State),
    (∃ off, i = .rd8 off ∨ i = .rd16 off ∨ i = .rd32 off) ∨ (∃ w off data, i = .busIllegal w off data) →
    exec i s = .next t → t = { s with reply := t.reply }

/-- The frame of WR8, WR16 and WR32 off CTRL: only IGN, the lengths, the buffers and the reply can change; a length
only by a write at its own offset; IGN only by a guarded offset; and every byte outside the bytes the write's target
names reads as before. -/
def Obligations.HostWriteFrame : Prop :=
  ∀ (n : Nat) (off : Offset) (data : Word) (i : Instr) (s t : State),
    IsWrite n off data i → (n = 4 → off.toNat ≠ 0x010) → exec i s = .next t →
    t = { s with ign := t.ign, keyLen := t.keyLen, msgLen := t.msgLen, keyBuf := t.keyBuf, msgBuf := t.msgBuf,
                 reply := t.reply }
      ∧ (off.toNat ≠ 0x018 → t.keyLen = s.keyLen) ∧ (off.toNat ≠ 0x01C → t.msgLen = s.msgLen)
      ∧ (¬InWindow off → off.toNat ≠ 0x018 → off.toNat ≠ 0x01C → t.ign = s.ign)
      ∧ (∀ a, (∀ o, target off.toNat = .keyWindow o → a < o ∨ o + n ≤ a) → t.keyBuf.read a = s.keyBuf.read a)
      ∧ (∀ a, (∀ o, target off.toNat = .msgWindow o → a < o ∨ o + n ≤ a) → t.msgBuf.read a = s.msgBuf.read a)

/-- The frame of the commands: none touches the hash port, the history or the turns; none but CLEAR touches a length, a
buffer or a byte of memory; while BUSY only IGN and the reply can change. That CLEAR keeps the history is the model's
choice (log entry 4). -/
def Obligations.CommandFrame : Prop :=
  ∀ (i : Instr) (s t : State),
    (∃ rest, i = .nop rest ∨ i = .compute rest ∨ i = .clear rest ∨ ∃ cmd, i = .rsvd cmd rest) →
    exec i s = .next t →
    t.hport = s.hport ∧ t.issues = s.issues ∧ t.agenda = s.agenda ∧ t.tick = s.tick
      ∧ ((∀ rest, i ≠ .clear rest) →
          t = { s with seq := t.seq, ign := t.ign, errcode := t.errcode, hcnt := t.hcnt, tag := t.tag, reply := t.reply })
      ∧ (s.busy = true → t = { s with ign := t.ign, reply := t.reply })

/-- The frame of the micro-operations: none touches IGN, the reply or the turns, and a step that does not end the call
keeps both lengths, every byte of both buffers, the tag and ERRCODE. -/
def Obligations.MicroOperationFrame : Prop :=
  ∀ (i : Instr) (s t : State), ¬FromHost i → exec i s = .next t →
    t.ign = s.ign ∧ t.reply = s.reply ∧ t.agenda = s.agenda ∧ t.tick = s.tick
      ∧ (t = s ∨ ((t.seq = .done ∨ t.seq = .error) ∧ Wiped t)
          ∨ (t.keyBuf = s.keyBuf ∧ t.msgBuf = s.msgBuf ∧ t.keyLen = s.keyLen ∧ t.msgLen = s.msgLen ∧ t.tag = s.tag
              ∧ t.errcode = s.errcode))

/-! ### Rules of the whole machine -/

/-- R28: IGN is set by exactly the guarded writes while BUSY and the reserved commands, and cleared by an accepted
CLEAR and by reset only; accepting COMPUTE does not clear it. -/
def Obligations.IgnIsSticky : Prop :=
  ∀ s t : State, step s = .next t →
    (s.ign = true →
      (t.ign = false ↔
        s.nextTurn = .reset ∨ (s.busy = false ∧ ∃ rest, hostInstr s.nextTurn = some (.clear rest))))
      ∧ (s.ign = false →
        (t.ign = true ↔
          ∃ i, hostInstr s.nextTurn = some i ∧ ((s.busy = true ∧ Guarded i) ∨ ∃ cmd rest, i = .rsvd cmd rest)))

/-- R29: a step that changes ERRCODE is a Fail, with INVALID_SIZE from CHECK or HASH_FAIL from a wait state, or an
accepted COMPUTE, CLEAR or a reset, which write 0. -/
def Obligations.ErrcodeIsWrittenByFail : Prop :=
  ∀ s t : State, step s = .next t → (Restarts s → t.errcode = 0#4) ∧ (t.errcode ≠ s.errcode →
    (s.nextTurn = .core ∧ t.seq = .error
        ∧ ((s.seq = .check ∧ t.errcode = 1#4)
            ∨ ((s.seq = .kwait ∨ s.seq = .iwait ∨ s.seq = .owait) ∧ t.errcode = 2#4)))
      ∨ (t.errcode = 0#4 ∧ Restarts s))

/-- HCNT counts the requests as they are issued, one by one and without wrapping, each by a Core turn on an empty port;
else only an accepted COMPUTE, CLEAR or a reset changes it, to 0 (10_state, section 2). That a reset and an accepted CLEAR
keep the Issue history is the model's choice, not the spec's (log entry 4). -/
def Obligations.HcntCountsTheRequests : Prop :=
  ∀ s t : State, step s = .next t → (Restarts s → t.hcnt = 0#2) ∧ (
    (t.issues = s.issues ∧ t.hcnt = s.hcnt)
      ∨ (t.issues = s.issues ∧ t.hcnt = 0#2 ∧ Restarts s)
      ∨ (s.nextTurn = .core ∧ s.hport = .empty ∧ t.hcnt.toNat = s.hcnt.toNat + 1
          ∧ ∃ p data, t.hport = .req p data ∧ t.issues = s.issues ++ [⟨p, data⟩]))

/-- The tag is changed only by an accepted COMPUTE or CLEAR, by a reset, and by OWAIT, which writes the digest it
consumes (R42, R218). -/
def Obligations.TagIsWrittenByFewSteps : Prop :=
  ∀ s t : State, step s = .next t → (Restarts s → t.tag = Vector.replicate 32 0#8) ∧ (t.tag ≠ s.tag →
    (s.nextTurn = .core ∧ s.seq = .owait ∧ t.seq = .done ∧ s.hport = .rsp .outer (.ok t.tag))
      ∨ (t.tag = Vector.replicate 32 0#8 ∧ Restarts s))

/-- While a call runs no step changes its key, its message or their lengths (R76, R158). -/
def Obligations.InputsAreFrozenWhileBusy : Prop :=
  ∀ s t : State, s.busy = true → step s = .next t → t.busy = true →
    t.keyBuf = s.keyBuf ∧ t.msgBuf = s.msgBuf ∧ t.keyLen = s.keyLen ∧ t.msgLen = s.msgLen

/-- A step that ends a call, by success, error or reset, leaves all call-scoped state zero (R46, R211, R276). -/
def Obligations.NothingIsRetained : Prop :=
  ∀ s t : State, s.busy = true → step s = .next t → t.busy = false → Wiped t

/-- The sequencer moves along the table only: a Core turn to one of the state's successors or nowhere; an accepted
COMPUTE to CHECK, an accepted CLEAR to IDLE; a reset to IDLE; no other turn moves it (R26, R106, R247). -/
def Obligations.SequencerFollowsTheTable : Prop :=
  ∀ s t : State, step s = .next t → t.seq ≠ s.seq →
    (s.nextTurn = .core ∧ t.seq ∈ successors s.seq)
      ∨ (s.nextTurn = .reset ∧ t.seq = .idle)
      ∨ (s.busy = false ∧ ∃ rest, hostInstr s.nextTurn = some (.compute rest) ∧ t.seq = .check)
      ∨ (s.busy = false ∧ ∃ rest, hostInstr s.nextTurn = some (.clear rest) ∧ t.seq = .idle)

/-- What the Host reads does not depend on the buffers it cannot read, and no access moves anything of them into what
it can read (R49, R66, R249). -/
def Obligations.HostLearnsNothingHidden : Prop :=
  ∀ (i : Instr) (s u s' : State), FromHost i → SameVisible s u → exec i s = .next s' →
    ∃ u', exec i u = .next u' ∧ u'.reply = s'.reply ∧ SameVisible s' u'

/-! ### The invariant and the call -/

/-- The invariant holds at reset. -/
def Obligations.InvAtReset : Prop := Inv State.reset

/-- Every step of every agent keeps the invariant: the buffers' canonical form and, in each sequencer state of a call,
every buffer, the port, the count and the history as the rules up to there make them. -/
def Obligations.InvIsKept : Prop :=
  ∀ s t : State, Inv s → step s = .next t → Inv t

/-- Under the invariant a step never faults, and it is refused only for a platform access that misses HKB. -/
def Obligations.NoStopUnderTheInvariant : Prop :=
  ∀ s : State, Inv s →
    (∃ t, step s = .next t)
      ∨ ∃ addr w sz data, s.nextTurn = .bus addr w sz data ∧ OutsideWindow addr
          ∧ step s = .refused (.outsideWindow addr)

/-- R240: the two call errors with their causes, what HCNT records of them (R216), and a tag of zeros. -/
def Obligations.CallErrorsRecordTheirCause : Prop :=
  ∀ s t : State, Inv s → s.seq ≠ .error → step s = .next t → t.seq = .error →
    t.tag = Vector.replicate 32 0#8 ∧ Wiped t
      ∧ ((s.seq = .check ∧ t.errcode = 1#4 ∧ t.hcnt = 0#2 ∧ (4096 < s.keyLen.toNat ∨ 65536 < s.msgLen.toNat))
        ∨ (s.seq = .kwait ∧ s.hport = .rsp .key .failR ∧ t.errcode = 2#4 ∧ t.hcnt = 1#2)
        ∨ (s.seq = .iwait ∧ s.hport = .rsp .inner .failR ∧ t.errcode = 2#4
            ∧ t.hcnt = (if 64 < s.keyLen.toNat then 2#2 else 1#2))
        ∨ (s.seq = .owait ∧ s.hport = .rsp .outer .failR ∧ t.errcode = 2#4
            ∧ t.hcnt = (if 64 < s.keyLen.toNat then 3#2 else 2#2)))

/-- The engine result under every schedule (R214, R216, R218): however the turns of the agents interleave, and whatever
the Host does meanwhile, a call that reaches DONE has the tag of the key and message that stood at its acceptance, and
the history ends with exactly its two or three requests, in order. -/
def Obligations.TagUnderEverySchedule : Prop :=
  ∀ (s t : State) (n : Nat), Inv s → s.seq = .check → Completes s n t →
    t.tag = hmac s.key s.msg ∧ t.hcnt = (if 64 < s.keyLen.toNat then 3#2 else 2#2)
      ∧ ∃ before, t.issues = before ++ allRequests s.key s.msg

/-- An uninterrupted call whose requests are all answered Ok ends in DONE after 8 Core turns, 9 for an oversized key,
with the tag of its key and message (R214, R279). -/
def Obligations.UninterruptedCallReachesDone : Prop :=
  (callTurns false).count .core = 8 ∧ (callTurns true).count .core = 9 ∧
    ∀ (s : State) (rest : List Turn), Inv s → s.seq = .check → Fits s →
      s.agenda = callTurns (decide (64 < s.keyLen.toNat)) ++ rest →
      ∃ t, core.run (callTurns (decide (64 < s.keyLen.toNat))).length s = .next t ∧ t.seq = .done
        ∧ t.tag = hmac s.key s.msg ∧ t.agenda = rest ∧ Wiped t

/-- With HASH_LIVE, a running call ends within twelve fair rounds of turns, whatever the Host does in them and however
the requests are answered (R86, R279). -/
def Obligations.CallEndsUnderFairTurns : Prop :=
  ∀ (s : State) (rounds : List (List Turn)) (rest : List Turn), Inv s → s.busy = true →
    s.agenda = rounds.flatten ++ rest → rounds.length = 12 → (∀ r ∈ rounds, FairRound true r) →
    ∃ n t, n ≤ rounds.flatten.length ∧ core.run n s = .next t ∧ t.busy = false
end

