-- ==== Sys2Proof/Laws/Decode.lean ====
section
/-! SUPPORT. The fields of a descriptor and of a CTRL word come back out of it, and the state codes are a numbering. -/

namespace Sys2Proof

/-- The bits of a descriptor (R101). -/
theorem getLsbD_mkDesc (w : Bool) (sz : BitVec 2) (off : Offset) (i : Nat) :
    BitVec.getLsbD (mkDesc w sz off) i
      = if i < 17 then off.getLsbD i else if i - 17 < 2 then sz.getLsbD (i - 17)
        else (BitVec.ofBool w).getLsbD (i - 17 - 2) := by
  refine (BitVec.getLsbD_append (x := BitVec.ofBool w ++ sz) (y := off)).trans ?_
  rw [BitVec.getLsbD_append]

/-- The bits of a CTRL word (R104). -/
theorem getLsbD_mkCmd (cmd : BitVec 4) (rest : BitVec 28) (i : Nat) :
    BitVec.getLsbD (mkCmd cmd rest) i = if i < 4 then cmd.getLsbD i else rest.getLsbD (i - 4) :=
  BitVec.getLsbD_append (x := rest) (y := cmd)

@[simp] theorem descOff_mkDesc (w : Bool) (sz : BitVec 2) (off : Offset) : descOff (mkDesc w sz off) = off := by
  refine BitVec.eq_of_getLsbD_eq fun i hi => ?_
  simp only [descOff, BitVec.getLsbD_extractLsb', getLsbD_mkDesc, Nat.zero_add, hi, decide_true, Bool.true_and, if_true]

@[simp] theorem descSz_mkDesc (w : Bool) (sz : BitVec 2) (off : Offset) : descSz (mkDesc w sz off) = sz := by
  refine BitVec.eq_of_getLsbD_eq fun i hi => ?_
  simp only [descSz, BitVec.getLsbD_extractLsb', getLsbD_mkDesc, hi, decide_true, Bool.true_and,
    Nat.add_sub_cancel_left, if_neg (show ¬17 + i < 17 by omega), if_true]

@[simp] theorem descW_mkDesc (w : Bool) (sz : BitVec 2) (off : Offset) : descW (mkDesc w sz off) = w := by
  rw [descW, getLsbD_mkDesc]
  simp

@[simp] theorem mkDesc_fields (d : Desc) : mkDesc (descW d) (descSz d) (descOff d) = d := by
  refine BitVec.eq_of_getLsbD_eq fun i hi => ?_
  rw [getLsbD_mkDesc]
  split
  · next h => simp only [descOff, BitVec.getLsbD_extractLsb', Nat.zero_add, h, decide_true, Bool.true_and]
  · split
    · next h h' =>
      simp only [descSz, BitVec.getLsbD_extractLsb', h', decide_true, Bool.true_and, show 17 + (i - 17) = i by omega]
    · obtain rfl : i = 19 := by omega
      simp [descW]

@[simp] theorem cmdCode_mkCmd (cmd : BitVec 4) (rest : BitVec 28) : cmdCode (mkCmd cmd rest) = cmd := by
  refine BitVec.eq_of_getLsbD_eq fun i hi => ?_
  simp only [cmdCode, BitVec.getLsbD_extractLsb', getLsbD_mkCmd, Nat.zero_add, hi, decide_true, Bool.true_and, if_true]

@[simp] theorem cmdRest_mkCmd (cmd : BitVec 4) (rest : BitVec 28) : cmdRest (mkCmd cmd rest) = rest := by
  refine BitVec.eq_of_getLsbD_eq fun i hi => ?_
  simp only [cmdRest, BitVec.getLsbD_extractLsb', getLsbD_mkCmd, hi, decide_true, Bool.true_and,
    Nat.add_sub_cancel_left, if_neg (show ¬4 + i < 4 by omega)]

@[simp] theorem mkCmd_fields (word : Word) : mkCmd (cmdCode word) (cmdRest word) = word := by
  refine BitVec.eq_of_getLsbD_eq fun i hi => ?_
  rw [getLsbD_mkCmd]
  split
  · next h => simp only [cmdCode, BitVec.getLsbD_extractLsb', Nat.zero_add, h, decide_true, Bool.true_and]
  · next h =>
    simp only [cmdRest, BitVec.getLsbD_extractLsb', show i - 4 < 28 by omega, decide_true, Bool.true_and,
      show 4 + (i - 4) = i by omega]

namespace Machine

@[simp] theorem SeqState.ofCode_code (q : SeqState) : SeqState.ofCode q.code = q := by cases q <;> rfl

/-- Every 4-bit code is a sequencer state's (R26). -/
@[simp] theorem SeqState.code_ofCode (c : BitVec 4) : (SeqState.ofCode c).code = c := by revert c; decide

/-- The reserved states are the codes 0xC to 0xF (R26, R107). -/
theorem SeqState.reserved_iff (q : SeqState) : q.reserved = true ↔ 0xC ≤ q.code.toNat := by
  cases q <;> simp [SeqState.reserved, SeqState.code]

end Machine

end Sys2Proof
end

