-- ==== Sys2Proof/Laws/Memory.lean ====
section
/-! SUPPORT. The laws of the buffers: read after write, the canonical form, the bound, and what a run of bytes does. -/

namespace Sys2Proof.Machine

@[simp] theorem Memory.read_nil (a : Nat) : Memory.read [] a = 0 := rfl

theorem Memory.read_cons (b : Nat) (x : Byte) (m : Memory) (a : Nat) :
    Memory.read ((b, x) :: m) a = if b = a then x else Memory.read m a := rfl

/-- In a canonical buffer that starts at `lo`, an index below `lo` is not listed. -/
theorem Memory.read_below {lo : Nat} {m : Memory} (h : Memory.wfFrom lo m = true) {a : Nat} (ha : a < lo) :
    m.read a = 0 := by
  induction m generalizing lo with
  | nil => rfl
  | cons c m ih =>
    obtain ⟨b, x⟩ := c
    simp only [Memory.wfFrom, Bool.and_eq_true, decide_eq_true_eq] at h
    rw [Memory.read_cons, if_neg (by omega)]
    exact ih h.2 (by omega)

/-- A canonical buffer may be seen as starting lower. -/
theorem Memory.wfFrom_mono {lo lo' : Nat} {m : Memory} (h : Memory.wfFrom lo m = true) (hl : lo' ≤ lo) :
    Memory.wfFrom lo' m = true := by
  cases m with
  | nil => rfl
  | cons c m =>
    obtain ⟨b, x⟩ := c
    simp only [Memory.wfFrom, Bool.and_eq_true, decide_eq_true_eq] at h ⊢
    exact ⟨⟨by omega, h.1.2⟩, h.2⟩

/-- A write leaves every other index alone. -/
theorem Memory.read_write_other (m : Memory) {a c : Nat} (v : Byte) (h : c ≠ a) :
    (m.write a v).read c = m.read c := by
  induction m with
  | nil =>
    simp only [Memory.write]
    split
    · rfl
    · rw [Memory.read_cons, if_neg (Ne.symm h)]
  | cons d m ih =>
    obtain ⟨b, x⟩ := d
    simp only [Memory.write]
    split
    · split
      · rfl
      · rw [Memory.read_cons, if_neg (Ne.symm h)]
    · split
      · next hab =>
        subst hab
        split
        · rw [Memory.read_cons, if_neg (Ne.symm h)]
        · rw [Memory.read_cons, Memory.read_cons, if_neg (Ne.symm h), if_neg (Ne.symm h)]
      · rw [Memory.read_cons, Memory.read_cons, ih]

theorem Memory.read_write_same_from {lo : Nat} {m : Memory} (h : Memory.wfFrom lo m = true) (a : Nat) (v : Byte) :
    (m.write a v).read a = v := by
  induction m generalizing lo with
  | nil =>
    simp only [Memory.write]
    split
    · next hv => exact hv.symm
    · rw [Memory.read_cons, if_pos rfl]
  | cons d m ih =>
    obtain ⟨b, x⟩ := d
    simp only [Memory.wfFrom, Bool.and_eq_true, decide_eq_true_eq] at h
    simp only [Memory.write]
    split
    · split
      · next hab hv =>
        rw [Memory.read_cons, if_neg (by omega), Memory.read_below h.2 (by omega), hv]; rfl
      · rw [Memory.read_cons, if_pos rfl]
    · split
      · next hab =>
        split
        · next hv => rw [Memory.read_below h.2 (by omega), hv]; rfl
        · rw [Memory.read_cons, if_pos rfl]
      · rw [Memory.read_cons, if_neg (by omega), ih h.2]

/-- In a canonical buffer, a read after a write to the same index gives the value written. -/
theorem Memory.read_write_same {m : Memory} (h : m.wf = true) (a : Nat) (v : Byte) : (m.write a v).read a = v :=
  Memory.read_write_same_from h a v

theorem Memory.wfFrom_write {lo : Nat} {m : Memory} (h : Memory.wfFrom lo m = true) {a : Nat} (ha : lo ≤ a)
    (v : Byte) : Memory.wfFrom lo (m.write a v) = true := by
  induction m generalizing lo with
  | nil =>
    simp only [Memory.write]
    split
    · rfl
    · next hv => simp [Memory.wfFrom, ha, hv]
  | cons d m ih =>
    obtain ⟨b, x⟩ := d
    have h' := h
    simp only [Memory.wfFrom, Bool.and_eq_true, decide_eq_true_eq] at h
    simp only [Memory.write]
    split
    · split
      · exact h'
      · next hab hv =>
        simp only [Memory.wfFrom, Bool.and_eq_true, decide_eq_true_eq]
        exact ⟨⟨ha, hv⟩, ⟨by omega, h.1.2⟩, h.2⟩
    · split
      · split
        · exact Memory.wfFrom_mono h.2 (by omega)
        · next hv =>
          simp only [Memory.wfFrom, Bool.and_eq_true, decide_eq_true_eq]
          refine ⟨⟨ha, hv⟩, Memory.wfFrom_mono h.2 (by omega)⟩
      · simp only [Memory.wfFrom, Bool.and_eq_true, decide_eq_true_eq]
        exact ⟨h.1, ih h.2 (by omega)⟩

/-- A write keeps the canonical form. -/
theorem Memory.wf_write {m : Memory} (h : m.wf = true) (a : Nat) (v : Byte) : (m.write a v).wf = true :=
  Memory.wfFrom_write h (Nat.zero_le a) v

/-- A write lists no cell but its own and those that were listed. -/
theorem Memory.mem_write {m : Memory} {a : Nat} {v : Byte} {c : Host.Cell} (h : c ∈ m.write a v) :
    c = (a, v) ∨ c ∈ m := by
  induction m with
  | nil =>
    simp only [Memory.write] at h
    split at h
    · exact Or.inr h
    · exact Or.inl (List.mem_singleton.mp h)
  | cons d m ih =>
    obtain ⟨b, x⟩ := d
    simp only [Memory.write] at h
    split at h
    · split at h
      · exact Or.inr h
      · exact List.mem_cons.mp h
    · split at h
      · split at h
        · exact Or.inr (List.mem_cons_of_mem _ h)
        · exact (List.mem_cons.mp h).imp_right (List.mem_cons_of_mem _)
      · rcases List.mem_cons.mp h with h | h
        · exact Or.inr (h ▸ List.mem_cons_self)
        · exact (ih h).imp_right (List.mem_cons_of_mem _)

/-- A write inside the bound keeps the bound. -/
theorem Memory.within_write {bound : Nat} {m : Memory} (h : m.within bound = true) {a : Nat} (ha : a < bound)
    (v : Byte) : (m.write a v).within bound = true := by
  simp only [Memory.within, List.all_eq_true, decide_eq_true_eq] at h ⊢
  intro c hc
  rcases Memory.mem_write hc with rfl | hm
  · exact ha
  · exact h c hm

@[simp] theorem Memory.wf_nil : Memory.wf [] = true := rfl

@[simp] theorem Memory.within_nil (bound : Nat) : Memory.within bound [] = true := rfl

@[simp] theorem Memory.writeBytes_nil (bound : Nat) (m : Memory) (o : Nat) : m.writeBytes bound o [] = m := rfl

theorem Memory.writeBytes_cons (bound : Nat) (m : Memory) (o : Nat) (b : Byte) (bs : List Byte) :
    m.writeBytes bound o (b :: bs) = Memory.writeBytes bound (if o < bound then m.write o b else m) (o + 1) bs := rfl

/-- A run of bytes keeps the canonical form. -/
theorem Memory.wf_writeBytes {bound : Nat} {m : Memory} (h : m.wf = true) (o : Nat) (bs : List Byte) :
    (m.writeBytes bound o bs).wf = true := by
  induction bs generalizing m o with
  | nil => exact h
  | cons b bs ih =>
    rw [Memory.writeBytes_cons]
    split
    · exact ih (Memory.wf_write h o b) _
    · exact ih h _

/-- A run of bytes keeps the bound: what lies above it is dropped (R68, R69). -/
theorem Memory.within_writeBytes {bound : Nat} {m : Memory} (h : m.within bound = true) (o : Nat) (bs : List Byte) :
    (m.writeBytes bound o bs).within bound = true := by
  induction bs generalizing m o with
  | nil => exact h
  | cons b bs ih =>
    rw [Memory.writeBytes_cons]
    split
    · next ho => exact ih (Memory.within_write h ho b) _
    · exact ih h _

/-- A run of bytes leaves every index outside it alone. -/
theorem Memory.read_writeBytes_outside (bound : Nat) (m : Memory) (o : Nat) (bs : List Byte) {a : Nat}
    (h : a < o ∨ o + bs.length ≤ a) : (m.writeBytes bound o bs).read a = m.read a := by
  induction bs generalizing m o with
  | nil => rfl
  | cons b bs ih =>
    rw [List.length_cons] at h
    rw [Memory.writeBytes_cons, ih _ _ (by omega)]
    split
    · exact Memory.read_write_other m b (by omega)
    · rfl

/-- A run of bytes inside the bound puts byte `k` at index `o + k`. -/
theorem Memory.read_writeBytes_inside {bound : Nat} {m : Memory} (h : m.wf = true) (o : Nat) (bs : List Byte) {k : Nat}
    (hk : k < bs.length) (hb : o + k < bound) : (m.writeBytes bound o bs).read (o + k) = bs[k] := by
  induction bs generalizing m o k with
  | nil => simp at hk
  | cons b bs ih =>
    rw [Memory.writeBytes_cons]
    cases k with
    | zero =>
      rw [Memory.read_writeBytes_outside _ _ _ _ (by omega), if_pos (by omega)]
      exact Memory.read_write_same h o b
    | succ k =>
      have hw : (if o < bound then m.write o b else m).wf = true := by
        split
        · exact Memory.wf_write h o b
        · exact h
      have := ih hw (o + 1) (k := k) (by simpa using hk) (by omega)
      rw [show o + (k + 1) = o + 1 + k by omega, this]
      rfl

@[simp] theorem Memory.length_slice (m : Memory) (n : Nat) : (m.slice n).length = n := by simp [Memory.slice]

@[simp] theorem Memory.getElem_slice (m : Memory) (n i : Nat) (h : i < (m.slice n).length) :
    (m.slice n)[i] = m.read i := by simp [Memory.slice]

/-- A slice depends on the bytes below its end only. -/
theorem Memory.slice_congr {m m' : Memory} {n : Nat} (h : ∀ i < n, m.read i = m'.read i) : m.slice n = m'.slice n := by
  refine List.ext_getElem (by simp) fun i hi _ => ?_
  simp only [Memory.length_slice] at hi
  simp [h i hi]

end Sys2Proof.Machine
end

