-- ==== Sys2Proof/Laws/Operands.lean ====
section
/-! SUPPORT. The laws of the operand forms: lengths, bytes, the access check and the map of the host space. -/

namespace Sys2Proof.Machine

@[simp] theorem length_unbe (n : Nat) (v : Word) : (unbe n v).length = n := by simp [unbe]

@[simp] theorem getElem_unbe (n : Nat) (v : Word) (k : Nat) (h : k < (unbe n v).length) :
    (unbe n v)[k] = v.extractLsb' (8 * (n - 1 - k)) 8 := by simp [unbe]

@[simp] theorem zeros_getElem (n i : Nat) (h : i < n) : (zeros n)[i] = 0 := by simp [zeros]

@[simp] theorem zeros_toList (n : Nat) : (zeros n).toList = List.replicate n 0 := by simp [zeros]

/-- Byte `i` of a padded sequence is the sequence's own, and 0 past its end. -/
@[simp] theorem padRight_getElem (n : Nat) (s : List Byte) (i : Nat) (h : i < n) :
    (padRight n s)[i] = s.getD i 0 := by simp [padRight]

/-- A sequence that fits is followed by zero bytes (R12, R172). -/
theorem padRight_toList {n : Nat} {s : List Byte} (h : s.length ≤ n) :
    (padRight n s).toList = s ++ List.replicate (n - s.length) 0 := by
  refine List.ext_getElem (by simp; omega) fun i h1 h2 => ?_
  have hi : i < n := by simpa using h1
  have hl : (padRight n s).toList[i] = (padRight n s)[i] := by simp
  rw [hl, padRight_getElem n s i hi, List.getElem_append]
  split
  · next hs => simp [List.getD_eq_getElem?_getD, hs]
  · next hs => simp [List.getD_eq_getElem?_getD, not_lt.mp hs]

/-- A sequence of exactly `n` bytes is not changed (R174). -/
theorem padRight_toList_exact {n : Nat} {s : List Byte} (h : s.length = n) : (padRight n s).toList = s := by
  rw [padRight_toList h.le, h]; simp

/-- Each byte of an XORed sequence comes from the byte at its own index (R203). -/
@[simp] theorem xorAll_getElem {n : Nat} (c : Byte) (v : Vector Byte n) (i : Nat) (h : i < n) :
    (xorAll c v)[i] = v[i] ^^^ c := by simp [xorAll]

/-- The check of R130, spelled out. -/
theorem accessOk_iff (n off : Nat) : accessOk n off = true ↔ off % n = 0 ∧ (off < 0x01000 → n = 4) := by
  by_cases hc : off < 0x01000 <;> by_cases hn : n = 4 <;> simp [accessOk, hc, hn]

theorem target_keyWindow {off : Nat} (h : 0x01000 ≤ off) (h' : off ≤ 0x01FFF) :
    target off = .keyWindow (off - 0x01000) := by
  unfold target; repeat rw [if_neg (by omega)]
  rw [if_pos ⟨h, h'⟩]

theorem target_msgWindow {off : Nat} (h : 0x10000 ≤ off) (h' : off ≤ 0x1FFFF) :
    target off = .msgWindow (off - 0x10000) := by
  unfold target; repeat rw [if_neg (by omega)]
  rw [if_pos ⟨h, h'⟩]

theorem target_tag {j : Nat} (h : j < 16) : target (0x040 + 4 * j) = .tag j := by
  unfold target; repeat rw [if_neg (by omega)]
  rw [if_pos (by omega)]; congr 1; omega

/-- A key-window target carries an index of the window. -/
theorem target_eq_keyWindow {off o : Nat} (h : target off = .keyWindow o) :
    0x01000 ≤ off ∧ off ≤ 0x01FFF ∧ o = off - 0x01000 := by
  by_cases hk : 0x01000 ≤ off ∧ off ≤ 0x01FFF
  · rw [target_keyWindow hk.1 hk.2, Target.keyWindow.injEq] at h
    exact ⟨hk.1, hk.2, h.symm⟩
  · simp only [target, if_neg hk] at h
    split_ifs at h

/-- A message-window target carries an index of the window. -/
theorem target_eq_msgWindow {off o : Nat} (h : target off = .msgWindow o) :
    0x10000 ≤ off ∧ off ≤ 0x1FFFF ∧ o = off - 0x10000 := by
  by_cases hm : 0x10000 ≤ off ∧ off ≤ 0x1FFFF
  · rw [target_msgWindow hm.1 hm.2, Target.msgWindow.injEq] at h
    exact ⟨hm.1, hm.2, h.symm⟩
  · simp only [target, if_neg hm] at h
    split_ifs at h

end Sys2Proof.Machine
end

