-- ==== Sys2Proof/Laws/State.lean ====
section
/-! SUPPORT. One lemma per field per update of the state, each true by unfolding the update. -/

namespace Sys2Proof.Machine

/-! ### After a write reply -/

@[simp] theorem State.replyWrite_seq (r : Resp) (s : State) : (State.replyWrite r s).seq = s.seq := rfl
@[simp] theorem State.replyWrite_ign (r : Resp) (s : State) : (State.replyWrite r s).ign = s.ign := rfl
@[simp] theorem State.replyWrite_errcode (r : Resp) (s : State) : (State.replyWrite r s).errcode = s.errcode := rfl
@[simp] theorem State.replyWrite_hcnt (r : Resp) (s : State) : (State.replyWrite r s).hcnt = s.hcnt := rfl
@[simp] theorem State.replyWrite_keyLen (r : Resp) (s : State) : (State.replyWrite r s).keyLen = s.keyLen := rfl
@[simp] theorem State.replyWrite_msgLen (r : Resp) (s : State) : (State.replyWrite r s).msgLen = s.msgLen := rfl
@[simp] theorem State.replyWrite_keyBuf (r : Resp) (s : State) : (State.replyWrite r s).keyBuf = s.keyBuf := rfl
@[simp] theorem State.replyWrite_msgBuf (r : Resp) (s : State) : (State.replyWrite r s).msgBuf = s.msgBuf := rfl
@[simp] theorem State.replyWrite_k0 (r : Resp) (s : State) : (State.replyWrite r s).k0 = s.k0 := rfl
@[simp] theorem State.replyWrite_k0Ipad (r : Resp) (s : State) : (State.replyWrite r s).k0Ipad = s.k0Ipad := rfl
@[simp] theorem State.replyWrite_k0Opad (r : Resp) (s : State) : (State.replyWrite r s).k0Opad = s.k0Opad := rfl
@[simp] theorem State.replyWrite_innerDigest (r : Resp) (s : State) : (State.replyWrite r s).innerDigest = s.innerDigest := rfl
@[simp] theorem State.replyWrite_tag (r : Resp) (s : State) : (State.replyWrite r s).tag = s.tag := rfl
@[simp] theorem State.replyWrite_hport (r : Resp) (s : State) : (State.replyWrite r s).hport = s.hport := rfl
@[simp] theorem State.replyWrite_issues (r : Resp) (s : State) : (State.replyWrite r s).issues = s.issues := rfl
@[simp] theorem State.replyWrite_reply (r : Resp) (s : State) : (State.replyWrite r s).reply = some ⟨r, none⟩ := rfl
@[simp] theorem State.replyWrite_agenda (r : Resp) (s : State) : (State.replyWrite r s).agenda = s.agenda := rfl
@[simp] theorem State.replyWrite_tick (r : Resp) (s : State) : (State.replyWrite r s).tick = s.tick := rfl

/-! ### After a read reply -/

@[simp] theorem State.replyRead_seq (r : Resp) (v : Word) (s : State) : (State.replyRead r v s).seq = s.seq := rfl
@[simp] theorem State.replyRead_ign (r : Resp) (v : Word) (s : State) : (State.replyRead r v s).ign = s.ign := rfl
@[simp] theorem State.replyRead_errcode (r : Resp) (v : Word) (s : State) : (State.replyRead r v s).errcode = s.errcode := rfl
@[simp] theorem State.replyRead_hcnt (r : Resp) (v : Word) (s : State) : (State.replyRead r v s).hcnt = s.hcnt := rfl
@[simp] theorem State.replyRead_keyLen (r : Resp) (v : Word) (s : State) : (State.replyRead r v s).keyLen = s.keyLen := rfl
@[simp] theorem State.replyRead_msgLen (r : Resp) (v : Word) (s : State) : (State.replyRead r v s).msgLen = s.msgLen := rfl
@[simp] theorem State.replyRead_keyBuf (r : Resp) (v : Word) (s : State) : (State.replyRead r v s).keyBuf = s.keyBuf := rfl
@[simp] theorem State.replyRead_msgBuf (r : Resp) (v : Word) (s : State) : (State.replyRead r v s).msgBuf = s.msgBuf := rfl
@[simp] theorem State.replyRead_k0 (r : Resp) (v : Word) (s : State) : (State.replyRead r v s).k0 = s.k0 := rfl
@[simp] theorem State.replyRead_k0Ipad (r : Resp) (v : Word) (s : State) : (State.replyRead r v s).k0Ipad = s.k0Ipad := rfl
@[simp] theorem State.replyRead_k0Opad (r : Resp) (v : Word) (s : State) : (State.replyRead r v s).k0Opad = s.k0Opad := rfl
@[simp] theorem State.replyRead_innerDigest (r : Resp) (v : Word) (s : State) : (State.replyRead r v s).innerDigest = s.innerDigest := rfl
@[simp] theorem State.replyRead_tag (r : Resp) (v : Word) (s : State) : (State.replyRead r v s).tag = s.tag := rfl
@[simp] theorem State.replyRead_hport (r : Resp) (v : Word) (s : State) : (State.replyRead r v s).hport = s.hport := rfl
@[simp] theorem State.replyRead_issues (r : Resp) (v : Word) (s : State) : (State.replyRead r v s).issues = s.issues := rfl
@[simp] theorem State.replyRead_reply (r : Resp) (v : Word) (s : State) : (State.replyRead r v s).reply = some ⟨r, some v⟩ := rfl
@[simp] theorem State.replyRead_agenda (r : Resp) (v : Word) (s : State) : (State.replyRead r v s).agenda = s.agenda := rfl
@[simp] theorem State.replyRead_tick (r : Resp) (v : Word) (s : State) : (State.replyRead r v s).tick = s.tick := rfl

/-! ### After Scrub (R211) -/

@[simp] theorem State.scrub_seq (s : State) : (State.scrub s).seq = s.seq := rfl
@[simp] theorem State.scrub_ign (s : State) : (State.scrub s).ign = s.ign := rfl
@[simp] theorem State.scrub_errcode (s : State) : (State.scrub s).errcode = s.errcode := rfl
@[simp] theorem State.scrub_hcnt (s : State) : (State.scrub s).hcnt = s.hcnt := rfl
@[simp] theorem State.scrub_keyLen (s : State) : (State.scrub s).keyLen = 0 := rfl
@[simp] theorem State.scrub_msgLen (s : State) : (State.scrub s).msgLen = 0 := rfl
@[simp] theorem State.scrub_keyBuf (s : State) : (State.scrub s).keyBuf = [] := rfl
@[simp] theorem State.scrub_msgBuf (s : State) : (State.scrub s).msgBuf = [] := rfl
@[simp] theorem State.scrub_k0 (s : State) : (State.scrub s).k0 = zeros _ := rfl
@[simp] theorem State.scrub_k0Ipad (s : State) : (State.scrub s).k0Ipad = zeros _ := rfl
@[simp] theorem State.scrub_k0Opad (s : State) : (State.scrub s).k0Opad = zeros _ := rfl
@[simp] theorem State.scrub_innerDigest (s : State) : (State.scrub s).innerDigest = zeros _ := rfl
@[simp] theorem State.scrub_tag (s : State) : (State.scrub s).tag = s.tag := rfl
@[simp] theorem State.scrub_hport (s : State) : (State.scrub s).hport = s.hport := rfl
@[simp] theorem State.scrub_issues (s : State) : (State.scrub s).issues = s.issues := rfl
@[simp] theorem State.scrub_reply (s : State) : (State.scrub s).reply = s.reply := rfl
@[simp] theorem State.scrub_agenda (s : State) : (State.scrub s).agenda = s.agenda := rfl
@[simp] theorem State.scrub_tick (s : State) : (State.scrub s).tick = s.tick := rfl

/-! ### After Fail (R212) -/

@[simp] theorem State.fail_seq (c : BitVec 4) (s : State) : (State.fail c s).seq = .error := rfl
@[simp] theorem State.fail_ign (c : BitVec 4) (s : State) : (State.fail c s).ign = s.ign := rfl
@[simp] theorem State.fail_errcode (c : BitVec 4) (s : State) : (State.fail c s).errcode = c := rfl
@[simp] theorem State.fail_hcnt (c : BitVec 4) (s : State) : (State.fail c s).hcnt = s.hcnt := rfl
@[simp] theorem State.fail_keyLen (c : BitVec 4) (s : State) : (State.fail c s).keyLen = 0 := rfl
@[simp] theorem State.fail_msgLen (c : BitVec 4) (s : State) : (State.fail c s).msgLen = 0 := rfl
@[simp] theorem State.fail_keyBuf (c : BitVec 4) (s : State) : (State.fail c s).keyBuf = [] := rfl
@[simp] theorem State.fail_msgBuf (c : BitVec 4) (s : State) : (State.fail c s).msgBuf = [] := rfl
@[simp] theorem State.fail_k0 (c : BitVec 4) (s : State) : (State.fail c s).k0 = zeros _ := rfl
@[simp] theorem State.fail_k0Ipad (c : BitVec 4) (s : State) : (State.fail c s).k0Ipad = zeros _ := rfl
@[simp] theorem State.fail_k0Opad (c : BitVec 4) (s : State) : (State.fail c s).k0Opad = zeros _ := rfl
@[simp] theorem State.fail_innerDigest (c : BitVec 4) (s : State) : (State.fail c s).innerDigest = zeros _ := rfl
@[simp] theorem State.fail_tag (c : BitVec 4) (s : State) : (State.fail c s).tag = s.tag := rfl
@[simp] theorem State.fail_hport (c : BitVec 4) (s : State) : (State.fail c s).hport = s.hport := rfl
@[simp] theorem State.fail_issues (c : BitVec 4) (s : State) : (State.fail c s).issues = s.issues := rfl
@[simp] theorem State.fail_reply (c : BitVec 4) (s : State) : (State.fail c s).reply = s.reply := rfl
@[simp] theorem State.fail_agenda (c : BitVec 4) (s : State) : (State.fail c s).agenda = s.agenda := rfl
@[simp] theorem State.fail_tick (c : BitVec 4) (s : State) : (State.fail c s).tick = s.tick := rfl

/-! ### After COMPUTE acceptance (R150) -/

@[simp] theorem State.startCall_seq (s : State) : (State.startCall s).seq = .check := rfl
@[simp] theorem State.startCall_ign (s : State) : (State.startCall s).ign = s.ign := rfl
@[simp] theorem State.startCall_errcode (s : State) : (State.startCall s).errcode = errNone := rfl
@[simp] theorem State.startCall_hcnt (s : State) : (State.startCall s).hcnt = 0 := rfl
@[simp] theorem State.startCall_keyLen (s : State) : (State.startCall s).keyLen = s.keyLen := rfl
@[simp] theorem State.startCall_msgLen (s : State) : (State.startCall s).msgLen = s.msgLen := rfl
@[simp] theorem State.startCall_keyBuf (s : State) : (State.startCall s).keyBuf = s.keyBuf := rfl
@[simp] theorem State.startCall_msgBuf (s : State) : (State.startCall s).msgBuf = s.msgBuf := rfl
@[simp] theorem State.startCall_k0 (s : State) : (State.startCall s).k0 = s.k0 := rfl
@[simp] theorem State.startCall_k0Ipad (s : State) : (State.startCall s).k0Ipad = s.k0Ipad := rfl
@[simp] theorem State.startCall_k0Opad (s : State) : (State.startCall s).k0Opad = s.k0Opad := rfl
@[simp] theorem State.startCall_innerDigest (s : State) : (State.startCall s).innerDigest = s.innerDigest := rfl
@[simp] theorem State.startCall_tag (s : State) : (State.startCall s).tag = zeros _ := rfl
@[simp] theorem State.startCall_hport (s : State) : (State.startCall s).hport = s.hport := rfl
@[simp] theorem State.startCall_issues (s : State) : (State.startCall s).issues = s.issues := rfl
@[simp] theorem State.startCall_reply (s : State) : (State.startCall s).reply = s.reply := rfl
@[simp] theorem State.startCall_agenda (s : State) : (State.startCall s).agenda = s.agenda := rfl
@[simp] theorem State.startCall_tick (s : State) : (State.startCall s).tick = s.tick := rfl

/-! ### After an accepted CLEAR (R152) -/

@[simp] theorem State.clearAll_seq (s : State) : (State.clearAll s).seq = .idle := rfl
@[simp] theorem State.clearAll_ign (s : State) : (State.clearAll s).ign = false := rfl
@[simp] theorem State.clearAll_errcode (s : State) : (State.clearAll s).errcode = errNone := rfl
@[simp] theorem State.clearAll_hcnt (s : State) : (State.clearAll s).hcnt = 0 := rfl
@[simp] theorem State.clearAll_keyLen (s : State) : (State.clearAll s).keyLen = 0 := rfl
@[simp] theorem State.clearAll_msgLen (s : State) : (State.clearAll s).msgLen = 0 := rfl
@[simp] theorem State.clearAll_keyBuf (s : State) : (State.clearAll s).keyBuf = [] := rfl
@[simp] theorem State.clearAll_msgBuf (s : State) : (State.clearAll s).msgBuf = [] := rfl
@[simp] theorem State.clearAll_k0 (s : State) : (State.clearAll s).k0 = zeros _ := rfl
@[simp] theorem State.clearAll_k0Ipad (s : State) : (State.clearAll s).k0Ipad = zeros _ := rfl
@[simp] theorem State.clearAll_k0Opad (s : State) : (State.clearAll s).k0Opad = zeros _ := rfl
@[simp] theorem State.clearAll_innerDigest (s : State) : (State.clearAll s).innerDigest = zeros _ := rfl
@[simp] theorem State.clearAll_tag (s : State) : (State.clearAll s).tag = zeros _ := rfl
@[simp] theorem State.clearAll_hport (s : State) : (State.clearAll s).hport = s.hport := rfl
@[simp] theorem State.clearAll_issues (s : State) : (State.clearAll s).issues = s.issues := rfl
@[simp] theorem State.clearAll_reply (s : State) : (State.clearAll s).reply = s.reply := rfl
@[simp] theorem State.clearAll_agenda (s : State) : (State.clearAll s).agenda = s.agenda := rfl
@[simp] theorem State.clearAll_tick (s : State) : (State.clearAll s).tick = s.tick := rfl

/-! ### After a reserved command (R156) -/

@[simp] theorem State.reservedCommand_seq (s : State) : (State.reservedCommand s).seq = s.seq := rfl
@[simp] theorem State.reservedCommand_ign (s : State) : (State.reservedCommand s).ign = true := rfl
@[simp] theorem State.reservedCommand_errcode (s : State) : (State.reservedCommand s).errcode = s.errcode := rfl
@[simp] theorem State.reservedCommand_hcnt (s : State) : (State.reservedCommand s).hcnt = s.hcnt := rfl
@[simp] theorem State.reservedCommand_keyLen (s : State) : (State.reservedCommand s).keyLen = s.keyLen := rfl
@[simp] theorem State.reservedCommand_msgLen (s : State) : (State.reservedCommand s).msgLen = s.msgLen := rfl
@[simp] theorem State.reservedCommand_keyBuf (s : State) : (State.reservedCommand s).keyBuf = s.keyBuf := rfl
@[simp] theorem State.reservedCommand_msgBuf (s : State) : (State.reservedCommand s).msgBuf = s.msgBuf := rfl
@[simp] theorem State.reservedCommand_k0 (s : State) : (State.reservedCommand s).k0 = s.k0 := rfl
@[simp] theorem State.reservedCommand_k0Ipad (s : State) : (State.reservedCommand s).k0Ipad = s.k0Ipad := rfl
@[simp] theorem State.reservedCommand_k0Opad (s : State) : (State.reservedCommand s).k0Opad = s.k0Opad := rfl
@[simp] theorem State.reservedCommand_innerDigest (s : State) : (State.reservedCommand s).innerDigest = s.innerDigest := rfl
@[simp] theorem State.reservedCommand_tag (s : State) : (State.reservedCommand s).tag = s.tag := rfl
@[simp] theorem State.reservedCommand_hport (s : State) : (State.reservedCommand s).hport = s.hport := rfl
@[simp] theorem State.reservedCommand_issues (s : State) : (State.reservedCommand s).issues = s.issues := rfl
@[simp] theorem State.reservedCommand_reply (s : State) : (State.reservedCommand s).reply = s.reply := rfl
@[simp] theorem State.reservedCommand_agenda (s : State) : (State.reservedCommand s).agenda = s.agenda := rfl
@[simp] theorem State.reservedCommand_tick (s : State) : (State.reservedCommand s).tick = s.tick := rfl

/-! ### After reset (R270) -/

@[simp] theorem State.resetHkb_seq (s : State) : (State.resetHkb s).seq = .idle := rfl
@[simp] theorem State.resetHkb_ign (s : State) : (State.resetHkb s).ign = false := rfl
@[simp] theorem State.resetHkb_errcode (s : State) : (State.resetHkb s).errcode = 0 := rfl
@[simp] theorem State.resetHkb_hcnt (s : State) : (State.resetHkb s).hcnt = 0 := rfl
@[simp] theorem State.resetHkb_keyLen (s : State) : (State.resetHkb s).keyLen = 0 := rfl
@[simp] theorem State.resetHkb_msgLen (s : State) : (State.resetHkb s).msgLen = 0 := rfl
@[simp] theorem State.resetHkb_keyBuf (s : State) : (State.resetHkb s).keyBuf = [] := rfl
@[simp] theorem State.resetHkb_msgBuf (s : State) : (State.resetHkb s).msgBuf = [] := rfl
@[simp] theorem State.resetHkb_k0 (s : State) : (State.resetHkb s).k0 = zeros _ := rfl
@[simp] theorem State.resetHkb_k0Ipad (s : State) : (State.resetHkb s).k0Ipad = zeros _ := rfl
@[simp] theorem State.resetHkb_k0Opad (s : State) : (State.resetHkb s).k0Opad = zeros _ := rfl
@[simp] theorem State.resetHkb_innerDigest (s : State) : (State.resetHkb s).innerDigest = zeros _ := rfl
@[simp] theorem State.resetHkb_tag (s : State) : (State.resetHkb s).tag = zeros _ := rfl
@[simp] theorem State.resetHkb_hport (s : State) : (State.resetHkb s).hport = .empty := rfl
@[simp] theorem State.resetHkb_issues (s : State) : (State.resetHkb s).issues = s.issues := rfl
@[simp] theorem State.resetHkb_reply (s : State) : (State.resetHkb s).reply = s.reply := rfl
@[simp] theorem State.resetHkb_agenda (s : State) : (State.resetHkb s).agenda = s.agenda := rfl
@[simp] theorem State.resetHkb_tick (s : State) : (State.resetHkb s).tick = s.tick := rfl

/-! ### After a guarded write (R158), the HashUnit's answer (R82) -/

/-- While BUSY a guarded write only sets IGN. -/
theorem State.guarded_busy (effect : State → State) (s : State) (h : s.busy = true) :
    s.guarded effect = { s with ign := true } := by simp [State.guarded, h]

/-- Not BUSY, a guarded write has its effect. -/
theorem State.guarded_free (effect : State → State) (s : State) (h : s.busy = false) :
    s.guarded effect = effect s := by simp [State.guarded, h]

@[simp] theorem State.hashAnswer_seq (ok : Bool) (s : State) : (State.hashAnswer ok s).seq = s.seq := by
  unfold State.hashAnswer; split <;> rfl
@[simp] theorem State.hashAnswer_ign (ok : Bool) (s : State) : (State.hashAnswer ok s).ign = s.ign := by
  unfold State.hashAnswer; split <;> rfl
@[simp] theorem State.hashAnswer_errcode (ok : Bool) (s : State) : (State.hashAnswer ok s).errcode = s.errcode := by
  unfold State.hashAnswer; split <;> rfl
@[simp] theorem State.hashAnswer_hcnt (ok : Bool) (s : State) : (State.hashAnswer ok s).hcnt = s.hcnt := by
  unfold State.hashAnswer; split <;> rfl
@[simp] theorem State.hashAnswer_keyLen (ok : Bool) (s : State) : (State.hashAnswer ok s).keyLen = s.keyLen := by
  unfold State.hashAnswer; split <;> rfl
@[simp] theorem State.hashAnswer_msgLen (ok : Bool) (s : State) : (State.hashAnswer ok s).msgLen = s.msgLen := by
  unfold State.hashAnswer; split <;> rfl
@[simp] theorem State.hashAnswer_keyBuf (ok : Bool) (s : State) : (State.hashAnswer ok s).keyBuf = s.keyBuf := by
  unfold State.hashAnswer; split <;> rfl
@[simp] theorem State.hashAnswer_msgBuf (ok : Bool) (s : State) : (State.hashAnswer ok s).msgBuf = s.msgBuf := by
  unfold State.hashAnswer; split <;> rfl
@[simp] theorem State.hashAnswer_k0 (ok : Bool) (s : State) : (State.hashAnswer ok s).k0 = s.k0 := by
  unfold State.hashAnswer; split <;> rfl
@[simp] theorem State.hashAnswer_k0Ipad (ok : Bool) (s : State) : (State.hashAnswer ok s).k0Ipad = s.k0Ipad := by
  unfold State.hashAnswer; split <;> rfl
@[simp] theorem State.hashAnswer_k0Opad (ok : Bool) (s : State) : (State.hashAnswer ok s).k0Opad = s.k0Opad := by
  unfold State.hashAnswer; split <;> rfl
@[simp] theorem State.hashAnswer_innerDigest (ok : Bool) (s : State) : (State.hashAnswer ok s).innerDigest = s.innerDigest := by
  unfold State.hashAnswer; split <;> rfl
@[simp] theorem State.hashAnswer_tag (ok : Bool) (s : State) : (State.hashAnswer ok s).tag = s.tag := by
  unfold State.hashAnswer; split <;> rfl
@[simp] theorem State.hashAnswer_issues (ok : Bool) (s : State) : (State.hashAnswer ok s).issues = s.issues := by
  unfold State.hashAnswer; split <;> rfl
@[simp] theorem State.hashAnswer_reply (ok : Bool) (s : State) : (State.hashAnswer ok s).reply = s.reply := by
  unfold State.hashAnswer; split <;> rfl
@[simp] theorem State.hashAnswer_agenda (ok : Bool) (s : State) : (State.hashAnswer ok s).agenda = s.agenda := by
  unfold State.hashAnswer; split <;> rfl
@[simp] theorem State.hashAnswer_tick (ok : Bool) (s : State) : (State.hashAnswer ok s).tick = s.tick := by
  unfold State.hashAnswer; split <;> rfl

end Sys2Proof.Machine
end

