-- ==== Sys2Proof/Laws/Ops.lean ====
section
/-! SUPPORT. For each shared operation, everything it can do, said once. -/

namespace Sys2Proof.Machine

/-! ### Bus accesses (R130) -/

theorem busRead_ok {n : Nat} {off : Offset} (value : State → Word) (s : State) (h : accessOk n off.toNat = true) :
    busRead n off value s = .next (s.replyRead .okay (value s)) := by simp [busRead, h]

theorem busRead_slverr {n : Nat} {off : Offset} (value : State → Word) (s : State)
    (h : accessOk n off.toNat = false) : busRead n off value s = .next (s.replyRead .slverr 0) := by simp [busRead, h]

/-- A read only replies (R72). -/
theorem busRead_next {n : Nat} {off : Offset} {value : State → Word} {s t : State} (h : busRead n off value s = .next t) :
    ∃ r v, t = s.replyRead r v := by
  unfold busRead at h
  split at h <;> cases h <;> exact ⟨_, _, rfl⟩

theorem busWrite_ok {n : Nat} {off : Offset} (effect : State → State) (s : State) (h : accessOk n off.toNat = true) :
    busWrite n off effect s = .next ((effect s).replyWrite .okay) := by simp [busWrite, h]

theorem busWrite_slverr {n : Nat} {off : Offset} (effect : State → State) (s : State)
    (h : accessOk n off.toNat = false) : busWrite n off effect s = .next (s.replyWrite .slverr) := by simp [busWrite, h]

/-- A write has its effect with OKAY, or none with SLVERR (R64). -/
theorem busWrite_next {n : Nat} {off : Offset} {effect : State → State} {s t : State}
    (h : busWrite n off effect s = .next t) : t = (effect s).replyWrite .okay ∨ t = s.replyWrite .slverr := by
  unfold busWrite at h
  split at h <;> cases h
  · exact Or.inl rfl
  · exact Or.inr rfl

/-! ### Guarded writes and commands (R142, R158) -/

theorem State.guarded_cases (effect : State → State) (s : State) :
    s.busy = true ∧ s.guarded effect = { s with ign := true } ∨ s.busy = false ∧ s.guarded effect = effect s := by
  cases h : s.busy
  · exact Or.inr ⟨rfl, State.guarded_free effect s h⟩
  · exact Or.inl ⟨rfl, State.guarded_busy effect s h⟩

/-- A command word does what one of the four commands does (R104, R142). -/
theorem State.command_cases (word : Word) (s : State) :
    (cmdCode word = 0x0#4 ∧ s.command word = s)
      ∨ (cmdCode word = 0x1#4 ∧ s.command word = s.guarded State.startCall)
      ∨ (cmdCode word = 0x2#4 ∧ s.command word = s.guarded State.clearAll)
      ∨ (cmdCode word ≠ 0x0#4 ∧ cmdCode word ≠ 0x1#4 ∧ cmdCode word ≠ 0x2#4
          ∧ s.command word = s.reservedCommand) := by
  unfold State.command
  by_cases h0 : cmdCode word = 0x0#4
  · exact Or.inl ⟨h0, if_pos h0⟩
  · rw [if_neg h0]
    by_cases h1 : cmdCode word = 0x1#4
    · exact Or.inr (Or.inl ⟨h1, if_pos h1⟩)
    · rw [if_neg h1]
      by_cases h2 : cmdCode word = 0x2#4
      · exact Or.inr (Or.inr (Or.inl ⟨h2, if_pos h2⟩))
      · exact Or.inr (Or.inr (Or.inr ⟨h0, h1, h2, if_neg h2⟩))

/-- A narrow write does nothing, or writes one of the windows. -/
theorem State.writeNarrow_cases (n : Nat) (off : Offset) (data : Word) (s : State) :
    s.writeNarrow n off data = s
      ∨ (∃ o, target off.toNat = .keyWindow o ∧ s.writeNarrow n off data = s.writeKeyWindow o (unbe n data))
      ∨ ∃ o, target off.toNat = .msgWindow o ∧ s.writeNarrow n off data = s.writeMsgWindow o (unbe n data) := by
  unfold State.writeNarrow
  cases h : target off.toNat <;> simp

/-! ### The hash port (R80-R84) -/

/-- HashIssue answers a next state exactly inside its precondition, and then it issues. -/
theorem State.hashIssue_next {p : Purpose} {data : List Byte} {wait : SeqState} {s t : State} :
    s.hashIssue p data wait = .next t ↔
      s.hport = .empty ∧ s.hcnt ≠ 3 ∧
        t = { s with hport := .req p data, hcnt := s.hcnt + 1, issues := s.issues ++ [⟨p, data⟩], seq := wait } := by
  unfold State.hashIssue
  split
  · next h1 => exact ⟨(fun h => by cases h), (fun h => absurd h.1 h1)⟩
  · next h1 =>
    split
    · next h2 => exact ⟨(fun h => by cases h), (fun h => absurd h2 h.2.1)⟩
    · next h2 =>
      constructor
      · rintro ⟨⟩
        exact ⟨not_not.mp h1, h2, rfl⟩
      · rintro ⟨-, -, rfl⟩
        rfl

theorem State.consume_ok {wait : SeqState} {p : Purpose} {d : Vector Byte Config.L} (onOk : Vector Byte Config.L → State → State)
    {s : State} (hs : s.seq = wait) (hp : s.hport = .rsp p (.ok d)) :
    s.consume wait p onOk = .next (onOk d { s with hport := .empty }) := by
  simp [State.consume, hs, hp]

theorem State.consume_failR {wait : SeqState} {p : Purpose} (onOk : Vector Byte Config.L → State → State)
    {s : State} (hs : s.seq = wait) (hp : s.hport = .rsp p .failR) :
    s.consume wait p onOk = .next (State.fail errHashFail { s with hport := .empty }) := by
  simp [State.consume, hs, hp]

/-- Without an answer of its own purpose a wait state holds (R83). -/
theorem State.consume_holds {wait : SeqState} {p : Purpose} (onOk : Vector Byte Config.L → State → State)
    {s : State} (hp : ∀ r, s.hport ≠ .rsp p r) : s.consume wait p onOk = .next s := by
  unfold State.consume
  split
  · next q r hq =>
    rw [if_neg]
    rintro ⟨-, rfl⟩
    exact hp r hq
  · rfl
  · rfl

/-- A wait state's step always answers a next state: it holds, goes on with a digest, or fails. -/
theorem State.consume_cases (wait : SeqState) (p : Purpose) (onOk : Vector Byte Config.L → State → State) (s : State) :
    s.consume wait p onOk = .next s
      ∨ (∃ d, s.seq = wait ∧ s.hport = .rsp p (.ok d) ∧ s.consume wait p onOk = .next (onOk d { s with hport := .empty }))
      ∨ (s.seq = wait ∧ s.hport = .rsp p .failR
          ∧ s.consume wait p onOk = .next (State.fail errHashFail { s with hport := .empty })) := by
  by_cases hp : ∃ r, s.hport = .rsp p r
  · obtain ⟨r, hp⟩ := hp
    by_cases hs : s.seq = wait
    · cases r with
      | ok d => exact Or.inr (Or.inl ⟨d, hs, hp, State.consume_ok onOk hs hp⟩)
      | failR => exact Or.inr (Or.inr ⟨hs, hp, State.consume_failR onOk hs hp⟩)
    · exact Or.inl (by simp [State.consume, hs, hp])
  · exact Or.inl (State.consume_holds onOk fun r hr => hp ⟨r, hr⟩)

/-- The HashUnit answers a request with its digest or FailR, and does nothing else (R82, R84). -/
theorem State.hashAnswer_req {p : Purpose} {data : List Byte} {s : State} (ok : Bool) (h : s.hport = .req p data) :
    s.hashAnswer ok = { s with hport := .rsp p (if ok then .ok (Config.H data) else .failR) } := by
  simp [State.hashAnswer, h]

theorem State.hashAnswer_idle {s : State} (ok : Bool) (h : ∀ p data, s.hport ≠ .req p data) : s.hashAnswer ok = s := by
  unfold State.hashAnswer
  split
  · next p data hp => exact absurd hp (h p data)
  · rfl
  · rfl

end Sys2Proof.Machine
end

