-- ==== Sys2Proof/Laws/Step.lean ====
section
/-! SUPPORT. What a step is, by the turn that comes next, and what a placed word does in the very next step. -/

namespace Sys2Proof.Machine

theorem nextTurn_cons {s : State} {t : Turn} {rest : List Turn} (h : s.agenda = t :: rest) : s.nextTurn = t := by
  simp [State.nextTurn, h]

theorem takeTurn_cons {s : State} {t : Turn} {rest : List Turn} (h : s.agenda = t :: rest) :
    s.takeTurn = { s with agenda := rest } := by
  simp [State.takeTurn, h]

/-- A settled turn is the one the step runs. -/
theorem step_cons {s : State} {t : Turn} {rest : List Turn} (h : s.agenda = t :: rest) :
    step s = runTurn t { s with agenda := rest } := by
  rw [step, nextTurn_cons h, takeTurn_cons h]

/-- Taking a turn touches the agenda and the counter only. -/
theorem takeTurn_fields (s : State) :
    ∃ agenda tick, s.takeTurn = { s with agenda := agenda, tick := tick } := by
  cases h : s.agenda with
  | nil => exact ⟨[], s.tick + 1, by simp [State.takeTurn, h]⟩
  | cons t rest => exact ⟨rest, s.tick, by simp [State.takeTurn, h]⟩

theorem legalTurn_ok {turn : State → Result} {s : State} (h : errReserved s.errcode = false) :
    legalTurn turn s = turn s := by simp [legalTurn, h]

theorem hostTurn_ok {desc : Desc} {data : Word} {s : State} (h : s.seq.reserved = false) :
    hostTurn desc data s = exec (decodeBus desc data) s := by simp [hostTurn, h]

/-- A platform access inside the window is the Host access of its offset (R61). -/
theorem busTurn_inside {addr : Nat} (w : Bool) (sz : BitVec 2) (data : Word) (s : State)
    (h : Config.BASE ≤ addr ∧ addr < Config.BASE + 0x20000) :
    busTurn addr w sz data s = hostTurn (busDesc addr w sz) data s := by rw [busTurn, if_pos h]

/-- A CTRL write reads as the command it carries (R104). -/
theorem decodeBus_ctrlDesc (word : Word) : decodeBus ctrlDesc word = decodeCmd word := rfl

/-- The Core's turn by the sequencer state (R106). -/
theorem coreTurn_eq (s : State) :
    coreTurn s =
      match s.seq with
      | .idle => .next s
      | .check => exec .check s
      | .norm => exec (decodeNorm s.keyLen) s
      | .kwait => if s.hport.answer = some .key then exec .kwait s else .next s
      | .xipad => exec .xipad s
      | .xopad => exec .xopad s
      | .inner => exec .inner s
      | .iwait => if s.hport.answer = some .inner then exec .iwait s else .next s
      | .outer => exec .outer s
      | .owait => if s.hport.answer = some .outer then exec .owait s else .next s
      | .done => .next s
      | .error => .next s
      | .reservedC => exec (.seqRsvd 0xC) s
      | .reservedD => exec (.seqRsvd 0xD) s
      | .reservedE => exec (.seqRsvd 0xE) s
      | .reservedF => exec (.seqRsvd 0xF) s := by
  unfold coreTurn
  cases h : s.seq <;>
    simp only [decode, decodeSeq, State.seqView, h, SeqState.code, decodeWait, BitVec.ofNat_eq_ofNat] <;>
    first
    | rfl
    | (by_cases ha : s.hport.answer = some .key <;> simp [ha])
    | (by_cases ha : s.hport.answer = some .inner <;> simp [ha])
    | (by_cases ha : s.hport.answer = some .outer <;> simp [ha])

/-- The very next step runs a placed bus word or command from the state it was placed in. -/
theorem step_placeFetched_bus {s : State} (desc : Desc) (data : Word) (he : errReserved s.errcode = false)
    (hq : s.seq.reserved = false) : step (s.placeFetched (.bus desc data)) = exec (decodeBus desc data) s := by
  rw [step_cons (t := .host desc data) (rest := s.agenda) rfl]
  change legalTurn (hostTurn desc data) s = _
  rw [legalTurn_ok he, hostTurn_ok hq]

theorem step_placeFetched_cmd {s : State} (word : Word) (he : errReserved s.errcode = false)
    (hq : s.seq.reserved = false) : step (s.placeFetched (.cmd word)) = exec (decodeCmd word) s :=
  step_placeFetched_bus ctrlDesc word he hq

/-! ### Runs -/

theorem run_zero (s : State) : core.run 0 s = .next s := rfl

theorem run_succ {k : Nat} {s t : State} (h : step s = .next t) : core.run (k + 1) s = core.run k t := by
  have h' : core.step s = .next t := h
  simp only [Host.Core.run, h']

/-- A run that answers a next state took its first step. -/
theorem run_succ_next {k : Nat} {s t : State} (h : core.run (k + 1) s = .next t) :
    ∃ u, step s = .next u ∧ core.run k u = .next t := by
  cases hs : step s with
  | next u => exact ⟨u, rfl, run_succ hs ▸ h⟩
  | fault r =>
    have h' : core.step s = .fault r := hs
    simp [Host.Core.run, h'] at h
  | refused r =>
    have h' : core.step s = .refused r := hs
    simp [Host.Core.run, h'] at h

end Sys2Proof.Machine
end

