-- ==== Sys2Proof/Laws/Moves.lean ====
section
/-! SUPPORT. Everything a step can do, said once: the moves of the Core, of the Host, and of a step. Invariants and
frames are derived from these, not by unfolding `step` again. -/

namespace Sys2Proof.Machine

open Sys2Proof.Safety

/-- What a Core turn can do (R106): one constructor per rule and outcome, and holding. -/
inductive CoreMove (s : State) : State → Prop
  | holds : CoreMove s s
  | checkOk (hs : s.seq = .check) (hk : s.keyLen.toNat ≤ Config.KEY_MAX) (hm : s.msgLen.toNat ≤ Config.MSG_MAX) :
      CoreMove s { s with seq := .norm }
  | checkBad (hs : s.seq = .check) (hb : Config.KEY_MAX < s.keyLen.toNat ∨ Config.MSG_MAX < s.msgLen.toNat) :
      CoreMove s (s.fail errInvalidSize)
  | normShort (hs : s.seq = .norm) (hk : s.keyLen.toNat < Config.B) :
      CoreMove s { s with k0 := padRight Config.B s.key, seq := .xipad }
  | normExact (hs : s.seq = .norm) (hk : s.keyLen.toNat = Config.B) :
      CoreMove s { s with k0 := padRight Config.B (s.keyBuf.slice Config.B), seq := .xipad }
  | normLong (hs : s.seq = .norm) (hk : Config.B < s.keyLen.toNat) (hm : s.keyLen.toNat ≤ Config.KEY_MAX)
      (hp : s.hport = .empty) (hc : s.hcnt ≠ 3) :
      CoreMove s { s with hport := .req .key s.key, hcnt := s.hcnt + 1, issues := s.issues ++ [⟨.key, s.key⟩],
                          seq := .kwait }
  | kwaitOk (hs : s.seq = .kwait) (d : Vector Byte Config.L) (hp : s.hport = .rsp .key (.ok d)) :
      CoreMove s { s with hport := .empty, k0 := padRight Config.B d.toList, seq := .xipad }
  | kwaitBad (hs : s.seq = .kwait) (hp : s.hport = .rsp .key .failR) :
      CoreMove s (State.fail errHashFail { s with hport := .empty })
  | xipad (hs : s.seq = .xipad) : CoreMove s { s with k0Ipad := xorAll Config.IPAD s.k0, seq := .xopad }
  | xopad (hs : s.seq = .xopad) : CoreMove s { s with k0Opad := xorAll Config.OPAD s.k0, seq := .inner }
  | inner (hs : s.seq = .inner) (hm : s.msgLen.toNat ≤ Config.MSG_MAX) (hp : s.hport = .empty) (hc : s.hcnt ≠ 3) :
      CoreMove s { s with hport := .req .inner (s.k0Ipad.toList ++ s.msg), hcnt := s.hcnt + 1,
                          issues := s.issues ++ [⟨.inner, s.k0Ipad.toList ++ s.msg⟩], seq := .iwait }
  | iwaitOk (hs : s.seq = .iwait) (d : Vector Byte Config.L) (hp : s.hport = .rsp .inner (.ok d)) :
      CoreMove s { s with hport := .empty, innerDigest := d, seq := .outer }
  | iwaitBad (hs : s.seq = .iwait) (hp : s.hport = .rsp .inner .failR) :
      CoreMove s (State.fail errHashFail { s with hport := .empty })
  | outer (hs : s.seq = .outer) (hp : s.hport = .empty) (hc : s.hcnt ≠ 3) :
      CoreMove s { s with hport := .req .outer (s.k0Opad.toList ++ s.innerDigest.toList), hcnt := s.hcnt + 1,
                          issues := s.issues ++ [⟨.outer, s.k0Opad.toList ++ s.innerDigest.toList⟩], seq := .owait }
  | owaitOk (hs : s.seq = .owait) (d : Vector Byte Config.L) (hp : s.hport = .rsp .outer (.ok d)) :
      CoreMove s { (State.scrub { s with hport := .empty, tag := d }) with seq := .done }
  | owaitBad (hs : s.seq = .owait) (hp : s.hport = .rsp .outer .failR) :
      CoreMove s (State.fail errHashFail { s with hport := .empty })

/-- A micro-operation that answers a next state makes one of the Core's moves. -/
theorem exec_coreMove {i : Instr} {s t : State} (hi : ¬FromHost i) (h : exec i s = .next t) : CoreMove s t := by
  cases i <;> simp only [FromHost, not_true_eq_false, not_false_eq_true] at hi
  case check =>
    simp only [exec, execCheck] at h
    split at h
    · next hs =>
      split at h <;> cases h
      · next hb => exact .checkBad hs hb
      · next hb => exact .checkOk hs (by omega) (by omega)
    · cases h; exact .holds
  case normShort =>
    simp only [exec, execNormShort] at h
    split at h <;> cases h
    · next hs => exact .normShort hs.1 hs.2
    · exact .holds
  case normExact =>
    simp only [exec, execNormExact] at h
    split at h <;> cases h
    · next hs => exact .normExact hs.1 hs.2
    · exact .holds
  case normLong =>
    simp only [exec, execNormLong] at h
    split at h
    · next hs =>
      split at h
      · cases h
      · next hk =>
        obtain ⟨hp, hc, rfl⟩ := State.hashIssue_next.mp h
        exact .normLong hs.1 hs.2 (by omega) hp hc
    · cases h; exact .holds
  case kwait =>
    simp only [exec, execKwait] at h
    rcases State.consume_cases .kwait .key (fun d t => { t with k0 := padRight Config.B d.toList, seq := .xipad }) s
      with h' | ⟨d, hs, hp, h'⟩ | ⟨hs, hp, h'⟩ <;> rw [h'] at h <;> cases h
    · exact .holds
    · exact .kwaitOk hs d hp
    · exact .kwaitBad hs hp
  case xipad =>
    simp only [exec, execXipad] at h
    split at h <;> cases h
    · next hs => exact .xipad hs
    · exact .holds
  case xopad =>
    simp only [exec, execXopad] at h
    split at h <;> cases h
    · next hs => exact .xopad hs
    · exact .holds
  case inner =>
    simp only [exec, execInner] at h
    split at h
    · next hs =>
      split at h
      · cases h
      · next hm =>
        obtain ⟨hp, hc, rfl⟩ := State.hashIssue_next.mp h
        exact .inner hs (by omega) hp hc
    · cases h; exact .holds
  case iwait =>
    simp only [exec, execIwait] at h
    rcases State.consume_cases .iwait .inner (fun d t => { t with innerDigest := d, seq := .outer }) s
      with h' | ⟨d, hs, hp, h'⟩ | ⟨hs, hp, h'⟩ <;> rw [h'] at h <;> cases h
    · exact .holds
    · exact .iwaitOk hs d hp
    · exact .iwaitBad hs hp
  case outer =>
    simp only [exec, execOuter] at h
    split at h
    · next hs =>
      obtain ⟨hp, hc, rfl⟩ := State.hashIssue_next.mp h
      exact .outer hs hp hc
    · cases h; exact .holds
  case owait =>
    simp only [exec, execOwait] at h
    rcases State.consume_cases .owait .outer (fun d t => { ({ t with tag := d } : State).scrub with seq := .done }) s
      with h' | ⟨d, hs, hp, h'⟩ | ⟨hs, hp, h'⟩ <;> rw [h'] at h <;> cases h
    · exact .holds
    · exact .owaitOk hs d hp
    · exact .owaitBad hs hp
  case seqRsvd code => simp only [exec, execSeqRsvd] at h; cases h

/-- The sequencer selects a micro-operation only. -/
theorem decode_seq_not_fromHost {v : SeqView} {i : Instr} (h : decode (.seq v) = .instr i) : ¬FromHost i := by
  have hn : ∀ k, ¬FromHost (decodeNorm k) := by
    intro k; unfold decodeNorm; split
    · simp [FromHost]
    · split <;> simp [FromHost]
  have hw : ∀ p a j, ¬FromHost j → decodeWait p a j = .instr i → ¬FromHost i := by
    intro p a j hj hd; unfold decodeWait at hd; split at hd <;> cases hd; exact hj
  simp only [decode, decodeSeq] at h
  split at h
  case h_3 => cases h; exact hn _
  case h_4 => exact hw _ _ _ (by simp [FromHost]) h
  case h_8 => exact hw _ _ _ (by simp [FromHost]) h
  case h_10 => exact hw _ _ _ (by simp [FromHost]) h
  all_goals first | (cases h; simp [FromHost]) | cases h

/-- A Core turn that answers a next state makes one of the Core's moves. -/
theorem coreTurn_move {s t : State} (h : coreTurn s = .next t) : CoreMove s t := by
  unfold coreTurn at h
  split at h
  · next i hi => exact exec_coreMove (decode_seq_not_fromHost hi) h
  · cases h; exact .holds

/-- What an instruction of the Host's can do (R130-R158), beside its reply. -/
inductive HostMove (s : State) : Instr → State → Prop
  /-- A read, an access with SLVERR, a NOP, a write at a read-only register or a reserved offset. -/
  | replies (i : Instr) (r : Reply) : HostMove s i { s with reply := some r }
  | lost (i : Instr) (hg : Guarded i) (hb : s.busy = true) :
      HostMove s i { s with ign := true, reply := some ⟨.okay, none⟩ }
  | keyBytes (n : Nat) (off : Offset) (data : Word) (i : Instr) (o : Nat) (hw : IsWrite n off data i)
      (ho : target off.toNat = .keyWindow o) (hf : s.busy = false) :
      HostMove s i { s with keyBuf := s.keyBuf.writeBytes Config.KEY_MAX o (unbe n data),
                            reply := some ⟨.okay, none⟩ }
  | msgBytes (n : Nat) (off : Offset) (data : Word) (i : Instr) (o : Nat) (hw : IsWrite n off data i)
      (ho : target off.toNat = .msgWindow o) (hf : s.busy = false) :
      HostMove s i { s with msgBuf := s.msgBuf.writeBytes Config.MSG_MAX o (unbe n data),
                            reply := some ⟨.okay, none⟩ }
  | keyLength (data : Word) (i : Instr) (hi : i = .wr32KeyLen data ∨ i = .wr32 0x00018#17 data) (hf : s.busy = false) :
      HostMove s i { s with keyLen := data, reply := some ⟨.okay, none⟩ }
  | msgLength (data : Word) (i : Instr) (hi : i = .wr32MsgLen data ∨ i = .wr32 0x0001C#17 data) (hf : s.busy = false) :
      HostMove s i { s with msgLen := data, reply := some ⟨.okay, none⟩ }
  | started (i : Instr) (hi : (∃ rest, i = .compute rest) ∨ ∃ data, i = .wr32 0x00010#17 data) (hf : s.busy = false) :
      HostMove s i (State.replyWrite .okay s.startCall)
  | cleared (i : Instr) (hi : (∃ rest, i = .clear rest) ∨ ∃ data, i = .wr32 0x00010#17 data) (hf : s.busy = false) :
      HostMove s i (State.replyWrite .okay s.clearAll)
  | reserved (i : Instr) (hi : (∃ cmd rest, i = .rsvd cmd rest) ∨ ∃ data, i = .wr32 0x00010#17 data) :
      HostMove s i { s with ign := true, reply := some ⟨.okay, none⟩ }

theorem accessOk_of_window {n : Nat} {off : Offset} (h : InWindow off) (ha : off.toNat % n = 0) :
    accessOk n off.toNat = true := by
  rw [accessOk_iff]
  refine ⟨ha, fun hlt => ?_⟩
  rcases h with h | h <;> omega

theorem inWindow_of_keyWindow {off : Offset} {o : Nat} (h : target off.toNat = .keyWindow o) : InWindow off :=
  have h := target_eq_keyWindow h
  Or.inl ⟨h.1, h.2.1⟩

theorem inWindow_of_msgWindow {off : Offset} {o : Nat} (h : target off.toNat = .msgWindow o) : InWindow off :=
  have h := target_eq_msgWindow h
  Or.inr ⟨h.1, h.2.1⟩

/-- A guarded write's move, by BUSY. -/
theorem guarded_move {i : Instr} {s : State} {effect : State → State} (hg : Guarded i)
    (hf : s.busy = false → HostMove s i (State.replyWrite .okay (effect s))) :
    HostMove s i (State.replyWrite .okay (s.guarded effect)) := by
  rcases State.guarded_cases effect s with ⟨hb, he⟩ | ⟨hb, he⟩ <;> rw [he]
  · exact .lost i hg hb
  · exact hf hb

/-- A narrow write's move. -/
theorem writeNarrow_move {n : Nat} {off : Offset} {data : Word} {i : Instr} {s : State} (hw : IsWrite n off data i)
    (hg : InWindow off → Guarded i) : HostMove s i (State.replyWrite .okay (s.writeNarrow n off data)) := by
  rcases State.writeNarrow_cases n off data s with h | ⟨o, ho, h⟩ | ⟨o, ho, h⟩ <;> rw [h]
  · exact .replies i _
  · exact guarded_move (hg (inWindow_of_keyWindow ho)) fun hf => .keyBytes n off data i o hw ho hf
  · exact guarded_move (hg (inWindow_of_msgWindow ho)) fun hf => .msgBytes n off data i o hw ho hf

/-- The control register that an offset names is at its own offset (R60). -/
theorem target_eq_ctrl {off : Offset} (h : target off.toNat = .ctrl) : off = 0x00010#17 := by
  by_cases hc : off.toNat = 0x010
  · exact BitVec.eq_of_toNat_eq hc
  · simp only [target, if_neg hc] at h
    split_ifs at h

theorem target_eq_keyLen {off : Offset} (h : target off.toNat = .keyLen) : off = 0x00018#17 := by
  by_cases hc : off.toNat = 0x018
  · exact BitVec.eq_of_toNat_eq hc
  · simp only [target, if_neg hc] at h
    split_ifs at h

theorem target_eq_msgLen {off : Offset} (h : target off.toNat = .msgLen) : off = 0x0001C#17 := by
  by_cases hc : off.toNat = 0x01C
  · exact BitVec.eq_of_toNat_eq hc
  · simp only [target, if_neg hc] at h
    split_ifs at h

/-- A word write's move (R142). -/
theorem writeWord_move {off : Offset} {data : Word} {s : State} (ha : accessOk 4 off.toNat = true) :
    HostMove s (.wr32 off data) (State.replyWrite .okay (s.writeWord off data)) := by
  have hal := ((accessOk_iff 4 off.toNat).mp ha).1
  unfold State.writeWord
  split
  · next h =>
    obtain rfl := target_eq_ctrl h
    rcases State.command_cases data s with ⟨-, hc⟩ | ⟨h1, hc⟩ | ⟨h2, hc⟩ | ⟨-, -, -, hc⟩ <;> rw [hc]
    · exact .replies _ _
    · exact guarded_move (Or.inr (Or.inr (Or.inr ⟨rfl, Or.inl h1⟩))) fun hf => .started _ (Or.inr ⟨data, rfl⟩) hf
    · exact guarded_move (Or.inr (Or.inr (Or.inr ⟨rfl, Or.inr h2⟩))) fun hf => .cleared _ (Or.inr ⟨data, rfl⟩) hf
    · exact .reserved _ (Or.inr ⟨data, rfl⟩)
  · next h =>
    obtain rfl := target_eq_keyLen h
    exact guarded_move (Or.inr (Or.inl rfl)) fun hf => .keyLength data _ (Or.inr rfl) hf
  · next h =>
    obtain rfl := target_eq_msgLen h
    exact guarded_move (Or.inr (Or.inr (Or.inl rfl))) fun hf => .msgLength data _ (Or.inr rfl) hf
  · next o h =>
    exact guarded_move (Or.inl ⟨inWindow_of_keyWindow h, hal⟩) fun hf =>
      .keyBytes 4 off data _ o (Or.inr (Or.inr ⟨rfl, rfl⟩)) h hf
  · next o h =>
    exact guarded_move (Or.inl ⟨inWindow_of_msgWindow h, hal⟩) fun hf =>
      .msgBytes 4 off data _ o (Or.inr (Or.inr ⟨rfl, rfl⟩)) h hf
  all_goals exact .replies _ _

/-- An instruction of the Host's always answers a next state, and it is one of the Host's moves. -/
theorem exec_hostMove {i : Instr} (s : State) (hi : FromHost i) : ∃ t, exec i s = .next t ∧ HostMove s i t := by
  have hr : ∀ n off value, ∃ t, busRead n off value s = .next t ∧ HostMove s i t := by
    intro n off value
    unfold busRead
    split <;> exact ⟨_, rfl, .replies i _⟩
  have hw : ∀ n off effect, (accessOk n off.toNat = true → HostMove s i (State.replyWrite .okay (effect s))) →
      ∃ t, busWrite n off effect s = .next t ∧ HostMove s i t := by
    intro n off effect h
    unfold busWrite
    split
    · next ha => exact ⟨_, rfl, h ha⟩
    · exact ⟨_, rfl, .replies i _⟩
  cases i <;> simp only [FromHost] at hi <;> simp only [exec]
  case rd8 off => exact hr _ _ _
  case rd16 off => exact hr _ _ _
  case rd32 off => exact hr _ _ _
  case wr8 off data => exact hw _ _ _ fun _ => writeNarrow_move (Or.inl ⟨rfl, rfl⟩) fun h => h
  case wr16 off data =>
    exact hw _ _ _ fun ha =>
      writeNarrow_move (Or.inr (Or.inl ⟨rfl, rfl⟩)) fun h => ⟨h, ((accessOk_iff 2 off.toNat).mp ha).1⟩
  case wr32 off data => exact hw _ _ _ fun ha => writeWord_move ha
  case wr32KeyLen data => exact ⟨_, rfl, guarded_move trivial fun hf => .keyLength data _ (Or.inl rfl) hf⟩
  case wr32MsgLen data => exact ⟨_, rfl, guarded_move trivial fun hf => .msgLength data _ (Or.inl rfl) hf⟩
  case busIllegal w off data =>
    simp only [execBusIllegal]
    split <;> exact ⟨_, rfl, .replies _ _⟩
  case nop rest => exact ⟨_, rfl, .replies _ _⟩
  case compute rest => exact ⟨_, rfl, guarded_move trivial fun hf => .started _ (Or.inl ⟨rest, rfl⟩) hf⟩
  case clear rest => exact ⟨_, rfl, guarded_move trivial fun hf => .cleared _ (Or.inl ⟨rest, rfl⟩) hf⟩
  case rsvd cmd rest => exact ⟨_, rfl, .reserved _ (Or.inl ⟨cmd, rest, rfl⟩)⟩

/-- A bus word decodes to an instruction of the Host's, and never to a WR32 at CTRL, KEY_LEN or MSG_LEN: those rows
have instructions of their own. -/
theorem decodeBus_fromHost (desc : Desc) (data : Word) :
    FromHost (decodeBus desc data) ∧ ∀ off x, decodeBus desc data = .wr32 off x →
      off ≠ 0x00010#17 ∧ off ≠ 0x00018#17 ∧ off ≠ 0x0001C#17 := by
  have hc : FromHost (decodeCmd data) ∧ ∀ off x, decodeCmd data ≠ .wr32 off x := by
    unfold decodeCmd
    split_ifs <;> simp [FromHost]
  unfold decodeBus decodeWr32
  split_ifs
  all_goals first
    | exact ⟨hc.1, fun off x h => absurd h (hc.2 off x)⟩
    | simp_all [FromHost]

/-- What a step can do: the turn it takes, and that turn's move from the state the turn is taken in. -/
inductive StepMove (s : State) : State → Prop
  | host (i : Instr) (hi : hostInstr s.nextTurn = some i) (hd : ∃ desc data, i = decodeBus desc data)
      (hq : s.seq.reserved = false) (t : State) (he : exec i s.takeTurn = .next t) (hm : HostMove s.takeTurn i t) :
      StepMove s t
  | core (hn : s.nextTurn = .core) (t : State) (hm : CoreMove s.takeTurn t) : StepMove s t
  | hashUnit (ok : Bool) (hn : s.nextTurn = .hashUnit ok) : StepMove s (s.takeTurn.hashAnswer ok)
  | reset (hn : s.nextTurn = .reset) : StepMove s s.takeTurn.resetHkb

@[simp] theorem takeTurn_seq (s : State) : s.takeTurn.seq = s.seq := by unfold State.takeTurn; split <;> rfl
@[simp] theorem takeTurn_ign (s : State) : s.takeTurn.ign = s.ign := by unfold State.takeTurn; split <;> rfl
@[simp] theorem takeTurn_errcode (s : State) : s.takeTurn.errcode = s.errcode := by unfold State.takeTurn; split <;> rfl
@[simp] theorem takeTurn_hcnt (s : State) : s.takeTurn.hcnt = s.hcnt := by unfold State.takeTurn; split <;> rfl
@[simp] theorem takeTurn_keyLen (s : State) : s.takeTurn.keyLen = s.keyLen := by unfold State.takeTurn; split <;> rfl
@[simp] theorem takeTurn_msgLen (s : State) : s.takeTurn.msgLen = s.msgLen := by unfold State.takeTurn; split <;> rfl
@[simp] theorem takeTurn_keyBuf (s : State) : s.takeTurn.keyBuf = s.keyBuf := by unfold State.takeTurn; split <;> rfl
@[simp] theorem takeTurn_msgBuf (s : State) : s.takeTurn.msgBuf = s.msgBuf := by unfold State.takeTurn; split <;> rfl
@[simp] theorem takeTurn_k0 (s : State) : s.takeTurn.k0 = s.k0 := by unfold State.takeTurn; split <;> rfl
@[simp] theorem takeTurn_k0Ipad (s : State) : s.takeTurn.k0Ipad = s.k0Ipad := by unfold State.takeTurn; split <;> rfl
@[simp] theorem takeTurn_k0Opad (s : State) : s.takeTurn.k0Opad = s.k0Opad := by unfold State.takeTurn; split <;> rfl
@[simp] theorem takeTurn_innerDigest (s : State) : s.takeTurn.innerDigest = s.innerDigest := by
  unfold State.takeTurn; split <;> rfl
@[simp] theorem takeTurn_tag (s : State) : s.takeTurn.tag = s.tag := by unfold State.takeTurn; split <;> rfl
@[simp] theorem takeTurn_hport (s : State) : s.takeTurn.hport = s.hport := by unfold State.takeTurn; split <;> rfl
@[simp] theorem takeTurn_issues (s : State) : s.takeTurn.issues = s.issues := by unfold State.takeTurn; split <;> rfl
@[simp] theorem takeTurn_reply (s : State) : s.takeTurn.reply = s.reply := by unfold State.takeTurn; split <;> rfl
@[simp] theorem takeTurn_busy (s : State) : s.takeTurn.busy = s.busy := by simp [State.busy]
@[simp] theorem takeTurn_key (s : State) : s.takeTurn.key = s.key := by simp [State.key]
@[simp] theorem takeTurn_msg (s : State) : s.takeTurn.msg = s.msg := by simp [State.msg]

theorem hostTurn_next {desc : Desc} {data : Word} {s t : State} (h : hostTurn desc data s = .next t) :
    s.seq.reserved = false ∧ exec (decodeBus desc data) s = .next t ∧ HostMove s (decodeBus desc data) t := by
  unfold hostTurn at h
  split at h
  · cases h
  · next hq =>
    obtain ⟨t', ht', hm⟩ := exec_hostMove s (decodeBus_fromHost desc data).1
    rw [h] at ht'
    cases ht'
    exact ⟨by simpa using hq, h, hm⟩

/-- A step that answers a next state makes one of a step's moves. -/
theorem step_move {s t : State} (h : step s = .next t) : StepMove s t := by
  unfold step runTurn at h
  have hl : ∀ {turn : State → Result}, legalTurn turn s.takeTurn = .next t → turn s.takeTurn = .next t := by
    intro turn h; unfold legalTurn at h; split at h
    · cases h
    · exact h
  split at h
  · next desc data hn =>
    have hm := hostTurn_next (hl h)
    exact .host _ (by rw [hn]; rfl) ⟨desc, data, rfl⟩ (by simpa using hm.1) t hm.2.1 hm.2.2
  · next addr w sz data hn =>
    have hb := hl h
    unfold busTurn at hb
    split at hb
    · have hm := hostTurn_next hb
      exact .host _ (by rw [hn]; rfl) ⟨_, data, rfl⟩ (by simpa using hm.1) t hm.2.1 hm.2.2
    · cases hb
  · next hn => exact .core hn t (coreTurn_move (hl h))
  · next ok hn =>
    have hh := hl h
    cases hh
    exact .hashUnit ok hn
  · next hn =>
    cases h
    exact .reset hn

end Sys2Proof.Machine
end

