-- ==== Sys2Proof/Laws/PerInstr.lean ====
section
/-! SUPPORT. Per instruction: the encoder's words lie in the instruction's own row of spec/opcode_table.json. -/

namespace Sys2Proof.Laws.TableRow

/-- A row's fixed field: `bits[hi:lo] = value`. -/
structure Fixed where
  hi : Nat
  lo : Nat
  value : Nat

/-- The rows of spec/opcode_table.json that carry the instruction's mnemonic, by their "fixed" fields (RSVD has
three). -/
def rows : Instr → List Fixed
  | .rd8 _ => [⟨19, 17, 0⟩]
  | .rd16 _ => [⟨19, 17, 1⟩]
  | .rd32 _ => [⟨19, 17, 2⟩]
  | .wr8 _ _ => [⟨19, 17, 4⟩]
  | .wr16 _ _ => [⟨19, 17, 5⟩]
  | .wr32 _ _ => [⟨19, 17, 6⟩]
  | .wr32KeyLen _ => [⟨19, 0, 786456⟩]
  | .wr32MsgLen _ => [⟨19, 0, 786460⟩]
  | .busIllegal _ _ _ => [⟨18, 17, 3⟩]
  | .nop _ => [⟨3, 0, 0⟩]
  | .compute _ => [⟨3, 0, 1⟩]
  | .clear _ => [⟨3, 0, 2⟩]
  | .rsvd _ _ => [⟨3, 0, 3⟩, ⟨3, 2, 1⟩, ⟨3, 3, 1⟩]
  | .check => [⟨3, 0, 1⟩]
  | .normShort => [⟨3, 0, 2⟩]
  | .normExact => [⟨3, 0, 2⟩]
  | .normLong => [⟨3, 0, 2⟩]
  | .kwait => [⟨3, 0, 3⟩]
  | .xipad => [⟨3, 0, 4⟩]
  | .xopad => [⟨3, 0, 5⟩]
  | .inner => [⟨3, 0, 6⟩]
  | .iwait => [⟨3, 0, 7⟩]
  | .outer => [⟨3, 0, 8⟩]
  | .owait => [⟨3, 0, 9⟩]
  | .seqRsvd _ => [⟨3, 2, 3⟩]

/-- The number whose bits the table numbers: the descriptor, the CTRL word or the state code. -/
def bits : Fetched → Nat
  | .bus desc _ => desc.toNat
  | .cmd word => word.toNat
  | .seq view => view.code.toNat

/-- The encoding of a well-formed instruction meets one of its mnemonic's rows. -/
def Statement (i : Instr) : Prop :=
  i.wellFormed = true → ∃ f ∈ rows i, bits (encode i) / 2 ^ f.lo % 2 ^ (f.hi - f.lo + 1) = f.value

theorem toNat_mkDesc (w : Bool) (sz : BitVec 2) (off : Offset) :
    (mkDesc w sz off).toNat = (w.toNat * 2 ^ 2 + sz.toNat) * 2 ^ 17 + off.toNat := by
  rw [show mkDesc w sz off = (BitVec.ofBool w ++ sz) ++ off from rfl, BitVec.toNat_append, BitVec.toNat_append,
    ← Nat.shiftLeft_add_eq_or_of_lt off.isLt, ← Nat.shiftLeft_add_eq_or_of_lt sz.isLt, BitVec.toNat_ofBool,
    Nat.shiftLeft_eq, Nat.shiftLeft_eq]

theorem toNat_mkCmd (cmd : BitVec 4) (rest : BitVec 28) : (mkCmd cmd rest).toNat = rest.toNat * 2 ^ 4 + cmd.toNat := by
  rw [show mkCmd cmd rest = rest ++ cmd from rfl, BitVec.toNat_append, ← Nat.shiftLeft_add_eq_or_of_lt cmd.isLt,
    Nat.shiftLeft_eq]

/-- The top three bits of a descriptor are W and SZ (R103). -/
theorem bus_row {w : Bool} {sz : BitVec 2} (off : Offset) (data : Word) :
    bits (.bus (mkDesc w sz off) data) / 2 ^ 17 % 2 ^ (19 - 17 + 1) = w.toNat * 4 + sz.toNat := by
  have h1 := off.isLt
  have h2 := sz.isLt
  have h3 := Bool.toNat_lt w
  simp only [bits, toNat_mkDesc]
  omega

/-- The low four bits of a CTRL word are CMD (R104). -/
theorem cmd_row (cmd : BitVec 4) (rest : BitVec 28) :
    bits (.cmd (mkCmd cmd rest)) / 2 ^ 0 % 2 ^ (3 - 0 + 1) = cmd.toNat := by
  have h1 := cmd.isLt
  simp only [bits, toNat_mkCmd]
  omega

theorem rd8 (off : Offset) : Statement (.rd8 off) := fun _ => ⟨_, List.mem_singleton_self _, bus_row off 0⟩
theorem rd16 (off : Offset) : Statement (.rd16 off) := fun _ => ⟨_, List.mem_singleton_self _, bus_row off 0⟩
theorem rd32 (off : Offset) : Statement (.rd32 off) := fun _ => ⟨_, List.mem_singleton_self _, bus_row off 0⟩
theorem wr8 (off : Offset) (data : Word) : Statement (.wr8 off data) :=
  fun _ => ⟨_, List.mem_singleton_self _, bus_row off data⟩
theorem wr16 (off : Offset) (data : Word) : Statement (.wr16 off data) :=
  fun _ => ⟨_, List.mem_singleton_self _, bus_row off data⟩
theorem wr32 (off : Offset) (data : Word) : Statement (.wr32 off data) :=
  fun _ => ⟨_, List.mem_singleton_self _, bus_row off data⟩
theorem wr32KeyLen (data : Word) : Statement (.wr32KeyLen data) := by
  refine fun _ => ⟨_, List.mem_singleton_self _, ?_⟩
  change (mkDesc true 0b10#2 0x00018#17).toNat / 2 ^ 0 % 2 ^ (19 - 0 + 1) = 786456
  decide
theorem wr32MsgLen (data : Word) : Statement (.wr32MsgLen data) := by
  refine fun _ => ⟨_, List.mem_singleton_self _, ?_⟩
  change (mkDesc true 0b10#2 0x0001C#17).toNat / 2 ^ 0 % 2 ^ (19 - 0 + 1) = 786460
  decide
theorem busIllegal (w : Bool) (off : Offset) (data : Word) : Statement (.busIllegal w off data) := by
  refine fun _ => ⟨_, List.mem_singleton_self _, ?_⟩
  have h1 := off.isLt
  have h3 := Bool.toNat_lt w
  change (mkDesc w 0b11#2 off).toNat / 2 ^ 17 % 2 ^ (18 - 17 + 1) = 3
  rw [toNat_mkDesc, show (0b11#2).toNat = 3 from rfl]
  omega
theorem nop (rest : BitVec 28) : Statement (.nop rest) := fun _ => ⟨_, List.mem_singleton_self _, cmd_row 0 rest⟩
theorem compute (rest : BitVec 28) : Statement (.compute rest) :=
  fun _ => ⟨_, List.mem_singleton_self _, cmd_row 1 rest⟩
theorem clear (rest : BitVec 28) : Statement (.clear rest) := fun _ => ⟨_, List.mem_singleton_self _, cmd_row 2 rest⟩
theorem rsvd (cmd : BitVec 4) (rest : BitVec 28) : Statement (.rsvd cmd rest) := by
  intro h
  have h0 : 3 ≤ cmd.toNat := by simpa [Instr.wellFormed] using h
  have h1 := cmd.isLt
  change ∃ f ∈ [Fixed.mk 3 0 3, Fixed.mk 3 2 1, Fixed.mk 3 3 1],
    (mkCmd cmd rest).toNat / 2 ^ f.lo % 2 ^ (f.hi - f.lo + 1) = f.value
  rw [toNat_mkCmd]
  by_cases h3 : cmd.toNat < 4
  · exact ⟨_, List.mem_cons_self, show (rest.toNat * 2 ^ 4 + cmd.toNat) / 2 ^ 0 % 2 ^ (3 - 0 + 1) = 3 by omega⟩
  · by_cases h7 : cmd.toNat < 8
    · exact ⟨_, List.mem_cons_of_mem _ List.mem_cons_self,
        show (rest.toNat * 2 ^ 4 + cmd.toNat) / 2 ^ 2 % 2 ^ (3 - 2 + 1) = 1 by omega⟩
    · exact ⟨_, List.mem_cons_of_mem _ (List.mem_cons_of_mem _ List.mem_cons_self),
        show (rest.toNat * 2 ^ 4 + cmd.toNat) / 2 ^ 3 % 2 ^ (3 - 3 + 1) = 1 by omega⟩
theorem check : Statement .check := fun _ => ⟨_, List.mem_singleton_self _, rfl⟩
theorem normShort : Statement .normShort := fun _ => ⟨_, List.mem_singleton_self _, rfl⟩
theorem normExact : Statement .normExact := fun _ => ⟨_, List.mem_singleton_self _, rfl⟩
theorem normLong : Statement .normLong := fun _ => ⟨_, List.mem_singleton_self _, rfl⟩
theorem kwait : Statement .kwait := fun _ => ⟨_, List.mem_singleton_self _, rfl⟩
theorem xipad : Statement .xipad := fun _ => ⟨_, List.mem_singleton_self _, rfl⟩
theorem xopad : Statement .xopad := fun _ => ⟨_, List.mem_singleton_self _, rfl⟩
theorem inner : Statement .inner := fun _ => ⟨_, List.mem_singleton_self _, rfl⟩
theorem iwait : Statement .iwait := fun _ => ⟨_, List.mem_singleton_self _, rfl⟩
theorem outer : Statement .outer := fun _ => ⟨_, List.mem_singleton_self _, rfl⟩
theorem owait : Statement .owait := fun _ => ⟨_, List.mem_singleton_self _, rfl⟩
theorem seqRsvd (code : BitVec 4) : Statement (.seqRsvd code) := by
  intro h
  have h0 : 0xC ≤ code.toNat := by simpa [Instr.wellFormed] using h
  have h1 := code.isLt
  exact ⟨_, List.mem_singleton_self _, show code.toNat / 2 ^ 2 % 2 ^ (3 - 2 + 1) = 3 by omega⟩

end Sys2Proof.Laws.TableRow
end

