-- ==== Sys2Proof/Machine/Pseudo.lean ====
section
/-! DEFINITION. The assembler's lines and pseudo-instructions (30_encoding R111, R112), each as the Host's turns it
assembles to. The machine knows only the bus operations they expand to. -/

namespace Sys2Proof.Machine

/-- A line `RD8`, `RD16` or `RD32 <off>` (R111). -/
def lineRead (sz : BitVec 2) (off : Offset) : Turn := .host (mkDesc false sz off) 0

/-- A line `WR8`, `WR16` or `WR32 <off>, <value>` (R111). -/
def lineWrite (sz : BitVec 2) (off : Offset) (value : Word) : Turn := .host (mkDesc true sz off) value

/-- `COMPUTE`. -/
def pseudoCompute : List Turn := [lineWrite 0b10#2 0x00010#17 1#32]

/-- `CLEAR`. -/
def pseudoClear : List Turn := [lineWrite 0b10#2 0x00010#17 2#32]

/-- `NOP`. -/
def pseudoNop : List Turn := [lineWrite 0b10#2 0x00010#17 0#32]

/-- The bytes that do not fill a word, each by a WR8 at its own index. DESIGN CHOICE (log entry 13): an offset past
0x1FFFF, which has no encoding (R101), wraps in its 17 bits. -/
def loadBytes (base : Offset) : Nat → List Byte → List Turn
  | _, [] => []
  | i, b :: bs => lineWrite 0b00#2 (base + BitVec.ofNat 17 i) (b.setWidth 32) :: loadBytes base (i + 1) bs

/-- The whole words first, each by a WR32 at an aligned offset, and then the bytes that remain. DESIGN CHOICE (log
entry 13): an offset past 0x1FFFF, which has no encoding (R101), wraps in its 17 bits. -/
def loadWords (base : Offset) : Nat → List Byte → List Turn
  | i, b0 :: b1 :: b2 :: b3 :: rest =>
    lineWrite 0b10#2 (base + BitVec.ofNat 17 i) (be4 b0 b1 b2 b3) :: loadWords base (i + 4) rest
  | i, rest => loadBytes base i rest

/-- `LDKEY s`. Of more than 126976 bytes its offsets wrap, and of 2^32 bytes or more its length too (log entry 13). -/
def pseudoLdkey (s : List Byte) : List Turn :=
  loadWords 0x01000#17 0 s ++ [lineWrite 0b10#2 0x00018#17 (BitVec.ofNat 32 s.length)]

/-- `LDMSG s`. Of more than 65536 bytes its offsets wrap, and of 2^32 bytes or more its length too (log entry 13). -/
def pseudoLdmsg (s : List Byte) : List Turn :=
  loadWords 0x10000#17 0 s ++ [lineWrite 0b10#2 0x0001C#17 (BitVec.ofNat 32 s.length)]

/-- `RDTAG`: TAG0 to TAG(L/4 - 1). -/
def pseudoRdtag : List Turn :=
  (List.range (Config.L / 4)).map fun j => lineRead 0b10#2 (0x00040#17 + BitVec.ofNat 17 (4 * j))

/-- The line that `WAIT` repeats. -/
def waitLine : Turn := lineRead 0b10#2 0x00014#17

/-- The line that `POLL <off>, <mask>, <val>` repeats. -/
def pollLine (off : Offset) : Turn := lineRead 0b10#2 off

/-- The read word that ends `POLL`. -/
def pollEnds (mask val read : Word) : Bool := decide (read &&& mask = val)

/-- The read word that ends `WAIT`: BUSY is clear. -/
def waitEnds (read : Word) : Bool := !read.getLsbD 4

/-- `HMAC k, s`, where its WAIT reads STATUS `waits` times. -/
def pseudoHmac (k s : List Byte) (waits : Nat) : List Turn :=
  pseudoLdkey k ++ pseudoLdmsg s ++ pseudoCompute ++ List.replicate waits waitLine ++ pseudoRdtag

end Sys2Proof.Machine
end

