-- ==== Sys2Proof/Tests/Slice0.lean ====
section
/-! SUPPORT. Tests, with results from 95_test_vectors (its row named in each) or from the rule named, and the witnesses
that the hypotheses of every obligation can be met. -/

namespace Sys2Proof.Tests

open Sys2Proof Sys2Proof.Machine Sys2Proof.Safety

/-- The machine after reset, but in this sequencer state and with this count of requests. -/
def inSeq (q : SeqState) (hcnt : BitVec 2) : State := { State.reset with seq := q, hcnt := hcnt }

/-- The state a result goes on with. -/
def after : Result → Option State
  | .next s => some s
  | .fault _ => none
  | .refused _ => none

/-- STATUS in the state a result goes on with. -/
def statusAfter (r : Result) : Option Word := (after r).map State.status

/-- What the Host got back. -/
def replyAfter (r : Result) : Option Reply := (after r).bind State.reply

/-- The first bytes of a buffer after a step. -/
def keyBytes (r : Result) (o n : Nat) : Option (List Byte) := (after r).map fun s => (List.range n).map fun k => s.keyBuf.read (o + k)

def msgBytes (r : Result) (o n : Nat) : Option (List Byte) := (after r).map fun s => (List.range n).map fun k => s.msgBuf.read (o + k)

def okay : Option Reply := some ⟨.okay, none⟩
def okayRead (v : Word) : Option Reply := some ⟨.okay, some v⟩
def slverr : Option Reply := some ⟨.slverr, none⟩
def slverrRead : Option Reply := some ⟨.slverr, some 0⟩

/-! ### WellFormed: an ill-formed term for each check -/

theorem test_illFormed_wr32_ctrl : Instr.wellFormed (.wr32 0x00010#17 1#32) = false := by decide
theorem test_illFormed_wr32_keyLen : Instr.wellFormed (.wr32 0x00018#17 1#32) = false := by decide
theorem test_illFormed_wr32_msgLen : Instr.wellFormed (.wr32 0x0001C#17 1#32) = false := by decide
theorem test_illFormed_rsvd : Instr.wellFormed (.rsvd 0x2#4 0#28) = false := by decide
theorem test_illFormed_seqRsvd : Instr.wellFormed (.seqRsvd 0xB#4) = false := by decide
theorem test_wellFormed_boundaries :
    Instr.wellFormed (.wr32 0x00014#17 1#32) = true ∧ Instr.wellFormed (.rsvd 0x3#4 0#28) = true
      ∧ Instr.wellFormed (.seqRsvd 0xC#4) = true := by decide

/-! ### Decoding: each constructor by a word of the spec. A descriptor is W, SZ, OFF (R101); BUS words are the desc
column of 95_test_vectors. -/

theorem test_decode_rd8 : decode (.bus 0b0_00_0_0001_0000_0000_0000#20 0) = .instr (.rd8 0x01000#17) := by decide
theorem test_decode_rd16 : decode (.bus 0b0_01_1_0000_0000_0000_0010#20 0) = .instr (.rd16 0x10002#17) := by decide
theorem test_decode_rd32 : decode (.bus 0x40014#20 0) = .instr (.rd32 0x00014#17) := by decide
theorem test_decode_wr8 : decode (.bus 0x81003#20 0xFFFFFF65#32) = .instr (.wr8 0x01003#17 0xFFFFFF65#32) := by decide
theorem test_decode_wr16 : decode (.bus 0xB0000#20 0x4869#32) = .instr (.wr16 0x10000#17 0x4869#32) := by decide
theorem test_decode_wr32 : decode (.bus 0xDFFFC#20 0xA1B2C3D4#32) = .instr (.wr32 0x1FFFC#17 0xA1B2C3D4#32) := by decide
theorem test_decode_wr32KeyLen : decode (.bus 0xC0018#20 20#32) = .instr (.wr32KeyLen 20#32) := by decide
theorem test_decode_wr32MsgLen : decode (.bus 0xC001C#20 8#32) = .instr (.wr32MsgLen 8#32) := by decide
theorem test_decode_busIllegal_read : decode (.bus 0x60014#20 0) = .instr (.busIllegal false 0x00014#17 0) := by decide
theorem test_decode_busIllegal_write : decode (.bus 0xE0010#20 1) = .instr (.busIllegal true 0x00010#17 1) := by decide
theorem test_decode_nop : decode (.cmd 0xFFFFFFF0#32) = .instr (.nop 0xFFFFFFF#28) := by decide
theorem test_decode_compute : decode (.cmd 0xFFFFFFF1#32) = .instr (.compute 0xFFFFFFF#28) := by decide
theorem test_decode_clear : decode (.bus 0xC0010#20 2#32) = .instr (.clear 0#28) := by decide
theorem test_decode_rsvd : decode (.cmd 0x00000003#32) = .instr (.rsvd 0x3#4 0#28)
    ∧ decode (.cmd 0x0000000F#32) = .instr (.rsvd 0xF#4 0#28) := by decide
theorem test_decode_check : decode (.seq ⟨0x1#4, 0, none⟩) = .instr .check := by decide
theorem test_decode_normShort : decode (.seq ⟨0x2#4, 63#32, none⟩) = .instr .normShort := by decide
theorem test_decode_normExact : decode (.seq ⟨0x2#4, 64#32, none⟩) = .instr .normExact := by decide
theorem test_decode_normLong : decode (.seq ⟨0x2#4, 65#32, none⟩) = .instr .normLong := by decide
theorem test_decode_kwait : decode (.seq ⟨0x3#4, 65#32, some .key⟩) = .instr .kwait := by decide
theorem test_decode_xipad : decode (.seq ⟨0x4#4, 0, none⟩) = .instr .xipad := by decide
theorem test_decode_xopad : decode (.seq ⟨0x5#4, 0, none⟩) = .instr .xopad := by decide
theorem test_decode_inner : decode (.seq ⟨0x6#4, 0, none⟩) = .instr .inner := by decide
theorem test_decode_iwait : decode (.seq ⟨0x7#4, 0, some .inner⟩) = .instr .iwait := by decide
theorem test_decode_outer : decode (.seq ⟨0x8#4, 0, none⟩) = .instr .outer := by decide
theorem test_decode_owait : decode (.seq ⟨0x9#4, 0, some .outer⟩) = .instr .owait := by decide
theorem test_decode_seqRsvd : decode (.seq ⟨0xC#4, 0, none⟩) = .instr (.seqRsvd 0xC#4)
    ∧ decode (.seq ⟨0xF#4, 0, none⟩) = .instr (.seqRsvd 0xF#4) := by decide
theorem test_decode_holding : decode (.seq ⟨0x9#4, 0, none⟩) = .rejected .holding := by decide
theorem test_decode_noMicroOp : decode (.seq ⟨0xB#4, 0, none⟩) = .rejected .noMicroOp := by decide
theorem test_tableWord_bus : decodeTableWord 52 (0xC0018 + 20 * 2 ^ 20) = some (.wr32KeyLen 20#32) := by decide
theorem test_tableWord_seq : decodeTableWord 8 0x9 = some .owait := by decide

/-! ### Bus operations -/

/-- BR17. -/
theorem test_rd8_key_window : replyAfter (exec (.rd8 0x01000#17) { State.reset with keyBuf := [(0, 0x4A)] }) = okayRead 0 := by
  decide
/-- BR11. -/
theorem test_rd8_status : replyAfter (exec (.rd8 0x00014#17) State.reset) = slverrRead := by decide
/-- BR19. -/
theorem test_rd16_top : replyAfter (exec (.rd16 0x1FFFE#17) State.reset) = okayRead 0 := by decide
/-- BR20. -/
theorem test_rd16_misaligned : replyAfter (exec (.rd16 0x1FFFF#17) State.reset) = slverrRead := by decide
/-- BR2. -/
theorem test_rd32_params : replyAfter (exec (.rd32 0x00004#17) State.reset) = okayRead 0x00200040#32 := by decide
/-- 95_test_vectors 2.7: TAG1 of S1, whose tag bytes 4 to 7 are d8 db 38 53. -/
theorem test_rd32_tag1 :
    replyAfter (exec (.rd32 0x00044#17) { State.reset with tag := padRight 32 [0xB0, 0x34, 0x4C, 0x61, 0xD8, 0xDB, 0x38, 0x53] })
      = okayRead 0xD8DB3853#32 := by decide
/-- BW2. -/
theorem test_wr8_ignores_upper_bits : keyBytes (exec (.wr8 0x01003#17 0xFFFFFF65#32) State.reset) 2 3 = some [0, 0x65, 0] := by
  decide
/-- BG2. -/
theorem test_wr8_busy : statusAfter (exec (.wr8 0x01000#17 0xFF#32) (inSeq .check 0)) = some 0x00000091#32 := by decide
/-- BW3. -/
theorem test_wr16_big_endian : msgBytes (exec (.wr16 0x10000#17 0x4869#32) State.reset) 0 3 = some [0x48, 0x69, 0] := by decide
/-- BW4. -/
theorem test_wr16_misaligned : after (exec (.wr16 0x10001#17 0x4869#32) State.reset) = some { State.reset with reply := slverr } := by
  decide
/-- BW8. -/
theorem test_wr32_top : msgBytes (exec (.wr32 0x1FFFC#17 0xA1B2C3D4#32) State.reset) 65532 5
    = some [0xA1, 0xB2, 0xC3, 0xD4, 0] := by decide
/-- BG9. -/
theorem test_wr32_busy_misaligned : after (exec (.wr32 0x01002#17 0#32) (inSeq .check 0))
    = some { inSeq .check 0 with reply := slverr } := by decide
/-- BW14. -/
theorem test_wr32KeyLen : (after (exec (.wr32KeyLen 0xFFFFFFFF#32) State.reset)).map State.keyLen = some 0xFFFFFFFF#32 := by decide
/-- BG1. -/
theorem test_wr32KeyLen_busy : after (exec (.wr32KeyLen 8#32) { inSeq .check 0 with keyLen := 4#32 })
    = some { inSeq .check 0 with keyLen := 4#32, ign := true, reply := okay } := by decide
/-- P2, line 16. -/
theorem test_wr32MsgLen : (after (exec (.wr32MsgLen 28#32) State.reset)).map State.msgLen = some 28#32 := by decide
/-- BR15. -/
theorem test_busIllegal : after (exec (.busIllegal true 0x00010#17 1#32) State.reset) = some { State.reset with reply := slverr } := by
  decide

/-! ### Commands -/

/-- CM11. -/
theorem test_nop_busy : after (exec (.nop 0xFFFFFFF#28) (inSeq .owait 2)) = some { inSeq .owait 2 with reply := okay }
    ∧ (inSeq .owait 2).status = 0x00002019#32 := by decide
/-- CM5. -/
theorem test_compute_keeps_ign : statusAfter (exec (.compute 0#28) { inSeq .done 2 with ign := true }) = some 0x00000091#32 := by
  decide
/-- CM3. -/
theorem test_compute_zeroes_tag :
    (after (exec (.compute 0#28) { inSeq .done 2 with tag := xorAll 0x6A (zeros 32) })).map State.tag = some (zeros 32) := by decide
/-- CM6. -/
theorem test_clear_error : after (exec (.clear 0#28) { inSeq .error 0 with errcode := 1 }) = some { State.reset with reply := okay } := by
  decide
/-- CM17. -/
theorem test_clear_busy : statusAfter (exec (.clear 0#28) (inSeq .kwait 1)) = some 0x00001093#32 := by decide
/-- CM16. -/
theorem test_rsvd_done : statusAfter (exec (.rsvd 0x4#4 0#28) (inSeq .done 2)) = some 0x000020AA#32 := by decide
/-- CM15. -/
theorem test_rsvd_busy : statusAfter (exec (.rsvd 0x5#4 0#28) (inSeq .iwait 1)) = some 0x00001097#32 := by decide

/-! ### KeyNormalizer -/

/-- CK2. -/
theorem test_check_largest : statusAfter (exec .check { inSeq .check 0 with keyLen := 4096#32, msgLen := 65536#32 })
    = some 0x00000012#32 := by decide
/-- CK4. -/
theorem test_check_too_long : statusAfter (exec .check { inSeq .check 0 with msgLen := 65537#32 }) = some 0x0000014B#32 := by decide
/-- NM2. -/
theorem test_normShort_pads :
    (after (exec .normShort { inSeq .norm 0 with keyLen := 4#32, keyBuf := [(0, 0x4A), (1, 0x65), (2, 0x66), (3, 0x65)] })).map
      State.k0 = some (padRight 64 [0x4A, 0x65, 0x66, 0x65]) := by decide
/-- R184: a byte written at index 4 with KEY_LEN = 4 does not enter k0. -/
theorem test_normShort_stops_at_key_len :
    (after (exec .normShort { inSeq .norm 0 with keyLen := 4#32, keyBuf := [(4, 0x99)] })).map State.k0 = some (zeros 64) := by
  decide
/-- NM6, with one byte at the last index. -/
theorem test_normExact_copies_last_byte :
    (after (exec .normExact { inSeq .norm 0 with keyLen := 64#32, keyBuf := [(63, 0x3F)] })).map (fun s => (s.k0[63], s.k0[0]))
      = some (0x3F, 0) := by decide
/-- NM7. -/
theorem test_normLong_issues :
    statusAfter (exec .normLong { inSeq .norm 0 with keyLen := 65#32 }) = some 0x00001013#32 := by decide
/-- NM7: the whole key is issued, with nothing added. -/
theorem test_normLong_request :
    (after (exec .normLong { inSeq .norm 0 with keyLen := 65#32, keyBuf := [(64, 0x40), (65, 0x99)] })).map State.hport
      = some (.req .key (List.replicate 64 0 ++ [0x40])) := by decide
/-- KW2, with a shorter-written digest. -/
theorem test_kwait_pads :
    (after (exec .kwait { inSeq .kwait 1 with hport := .rsp .key (.ok (padRight 32 [0x4B, 0xFD])) })).map
      (fun s => (s.status, s.k0, s.hport)) = some (0x00001014#32, padRight 64 [0x4B, 0xFD], .empty) := by decide
/-- KW4. -/
theorem test_kwait_fails : statusAfter (exec .kwait { inSeq .kwait 1 with hport := .rsp .key .failR }) = some 0x0000124B#32 := by
  decide

/-! ### Block assembler -/

/-- The lanes 0x5C and 0xAA of 2.5. -/
theorem test_xipad_lanes : (after (exec .xipad { inSeq .xipad 0 with k0 := padRight 64 [0x5C, 0xAA] })).map
    (fun s => (s.k0Ipad[0], s.k0Ipad[1], s.k0Ipad[63])) = some (0x6A, 0x9C, 0x36) := by decide
/-- The lanes 0x36 and 0x4A of 2.5. -/
theorem test_xopad_lanes : (after (exec .xopad { inSeq .xopad 0 with k0 := padRight 64 [0x36, 0x4A] })).map
    (fun s => (s.k0Opad[0], s.k0Opad[1], s.k0Opad[63])) = some (0x6A, 0x16, 0x5C) := by decide
/-- S1's step trace: the pad comes first, then the message. -/
theorem test_inner_request : (after (exec .inner { inSeq .inner 0 with
      k0Ipad := xorAll 0x36 (zeros 64), msgLen := 2#32, msgBuf := [(0, 0x48), (1, 0x69), (2, 0x20)] })).map
    (fun s => (s.status, s.hport)) = some (0x00001017#32, .req .inner (List.replicate 64 0x36 ++ [0x48, 0x69])) := by decide
/-- R206. -/
theorem test_iwait_keeps_digest : (after (exec .iwait { inSeq .iwait 1 with hport := .rsp .inner (.ok (padRight 32 [0x92])) })).map
    (fun s => (s.status, s.innerDigest)) = some (0x00001018#32, padRight 32 [0x92]) := by decide
/-- P4, line 14: INNER answered FailR with IGN set. -/
theorem test_iwait_fails : statusAfter (exec .iwait { inSeq .iwait 1 with ign := true, hport := .rsp .inner .failR })
    = some 0x000012CB#32 := by decide
/-- R208: the pad comes first, then the digest. -/
theorem test_outer_request : (after (exec .outer { inSeq .outer 1 with
      k0Opad := xorAll 0x5C (zeros 64), innerDigest := padRight 32 [0xA2] })).map
    (fun s => (s.status, s.hport))
      = some (0x00002019#32, .req .outer (List.replicate 64 0x5C ++ [0xA2] ++ List.replicate 31 0)) := by decide
/-- P1's end state. -/
theorem test_owait_done : (after (exec .owait { inSeq .owait 2 with
      keyLen := 20#32, keyBuf := [(0, 0x0B)], hport := .rsp .outer (.ok (padRight 32 [0xB0])) })).map
    (fun s => (s.status, s.tag, s.keyLen, s.keyBuf)) = some (0x0000202A#32, padRight 32 [0xB0], 0, []) := by decide
/-- R83: without the outer answer the Core holds. -/
theorem test_owait_holds : after (exec .owait (inSeq .owait 2)) = some (inSeq .owait 2) := by decide
/-- R107. -/
theorem test_seqRsvd : after (exec (.seqRsvd 0xC#4) State.reset) = none := by decide

/-! ### The step -/

/-- RS3: a reset in IWAIT empties the port. -/
theorem test_step_reset : after (step { inSeq .iwait 1 with hport := .req .inner [], agenda := [.reset] }) = some State.reset := by
  decide
/-- CM1 by its bus words. -/
theorem test_step_host : statusAfter (step { State.reset with agenda := [.host 0xC0010#20 1#32] }) = some 0x00000011#32 := by decide
/-- R106: the Core moves by its own state. -/
theorem test_step_core : statusAfter (step { inSeq .check 0 with agenda := [.core] }) = some 0x00000012#32 := by decide
/-- I1: a request may be answered FailR. -/
theorem test_step_hashUnit : (after (step { inSeq .iwait 1 with hport := .req .inner [], agenda := [.hashUnit false] })).map State.hport
    = some (.rsp .inner .failR) := by decide
/-- KW5. -/
theorem test_step_core_holds : statusAfter (step { inSeq .kwait 1 with hport := .req .key [], agenda := [.core] })
    = some 0x00001013#32 := by decide
/-- The table's row of XIPAD, placed as the first instruction after reset. -/
theorem test_withFetchWord : statusAfter (step (State.reset.withFetchWord 8 0x4)) = some 0x00000015#32 := by decide

/-! ### Pseudo-instructions -/

/-- P5, lines 1 to 18: whole words first, then the byte that remains, then the length. -/
theorem test_ldkey :
    (fun p : List Turn => (p.length, p[0]?, p[16]?, p[17]?)) (pseudoLdkey ((List.range 65).map (BitVec.ofNat 8)))
      = (18, some (.host 0xC1000#20 0x00010203#32), some (.host 0x81040#20 0x40#32), some (.host 0xC0018#20 65#32)) := by
  decide
/-- P1, lines 7 to 9. -/
theorem test_ldmsg : pseudoLdmsg [0x48, 0x69, 0x20, 0x54, 0x68, 0x65, 0x72, 0x65]
    = [.host 0xD0000#20 0x48692054#32, .host 0xD0004#20 0x68657265#32, .host 0xC001C#20 8#32] := by decide
/-- P2, lines 17 to 26: the last tag word, and the reads that end and do not end WAIT. -/
theorem test_rdtag_and_wait : pseudoRdtag.length = 8 ∧ pseudoRdtag[7]? = some (.host 0x4005C#20 0)
    ∧ pseudoCompute = [.host 0xC0010#20 1#32] ∧ waitLine = .host 0x40014#20 0
    ∧ waitEnds 0x00002019#32 = false ∧ waitEnds 0x0000202A#32 = true := by decide

/-! ### Witnesses: the hypotheses of the obligations can be met, and so can each clause's -/

/-- The machine after reset, with these turns to come. -/
def withTurns (ts : List Turn) : State := { State.reset with agenda := ts }

/-- A read of STATUS. -/
def readStatus : Turn := .host 0x40014#20 0

theorem witness_ResetStepResetsEverything : State.nextTurn { inSeq .iwait 1 with agenda := [.reset] } = .reset := by decide

theorem witness_StepRunsTheHostAccess :
    (withTurns [readStatus]).nextTurn = .host 0x40014#20 0 ∧ errReserved (withTurns [readStatus]).errcode = false
      ∧ (withTurns [readStatus]).seq.reserved = false ∧ decode (.bus 0x40014#20 0) = .instr (.rd32 0x00014#17) := by decide

/-- With a micro-operation, with a wait state that holds, and with no micro-operation. -/
theorem witness_StepRunsTheMicroOperation :
    (withTurns [.core]).nextTurn = .core ∧ errReserved (withTurns [.core]).errcode = false
      ∧ decode (.seq (withTurns [.core]).seqView) = .rejected .noMicroOp
      ∧ decode (.seq (inSeq .kwait 1).seqView) = .rejected .holding
      ∧ decode (.seq (inSeq .xipad 0).seqView) = .instr .xipad := by decide

/-- Outside, at both ends inside, and across the end. -/
theorem witness_PlatformAccessUsesItsOffset (addr : Nat) :
    (withTurns [.bus addr false 1#2 0]).nextTurn = .bus addr false 1#2 0
      ∧ errReserved (withTurns [.bus addr false 1#2 0]).errcode = false
      ∧ (withTurns [.bus addr false 1#2 0]).seq.reserved = false
      ∧ Config.BASE + 0x20000 ≤ Config.BASE + 0x20000
      ∧ Config.BASE = Config.BASE + (0x00000#17).toNat ∧ Config.BASE + 0x1FFFF = Config.BASE + (0x1FFFF#17).toNat
      ∧ Config.BASE + 0x1FFFF < Config.BASE + 0x20000 ∧ Config.BASE + 0x20000 < Config.BASE + 0x1FFFF + 2 ^ (1#2).toNat
      ∧ (1#2 : BitVec 2) ≠ 0b11#2 ∧ Config.BASE ≤ Config.BASE + 0x1FFFF := by
  have h : (0x1FFFF#17).toNat = 0x1FFFF ∧ (0x00000#17).toNat = 0 ∧ 2 ^ (1#2).toNat = 2 := by decide
  rw [h.1, h.2.1, h.2.2]
  generalize Config.BASE = base
  exact ⟨rfl, rfl, rfl, by omega, by omega, rfl, by omega, by omega, by decide, by omega⟩

theorem witness_DecodeOfEncode : Instr.wellFormed (.wr32 0x1FFFF#17 0xFFFFFFFF#32) = true := by decide

/-- A write, an illegal size, a read and a micro-operation. -/
theorem witness_EncodeOfDecode :
    descW 0xC0010#20 = true ∧ descSz 0x60014#20 = 0b11#2 ∧ descW 0x40014#20 = false ∧ descSz 0x40014#20 ≠ 0b11#2
      ∧ decode (.seq ⟨0xF#4, 0, none⟩) = .instr (.seqRsvd 0xF#4) := by decide

/-- Each cause of SLVERR alone, at its boundary, and an access with none. -/
theorem witness_SlverrExactly :
    (0x01001#17).toNat % 2 ^ (1#2).toNat ≠ 0 ∧ ((0x00FFE#17).toNat < 0x01000 ∧ (1#2 : BitVec 2) ≠ 0b10#2)
      ∧ ¬((1#2 : BitVec 2) = 0b11#2 ∨ (0x01000#17).toNat % 2 ^ (1#2).toNat ≠ 0
          ∨ ((0x01000#17).toNat < 0x01000 ∧ (1#2 : BitVec 2) ≠ 0b10#2)) := by decide

theorem witness_IllegalSizeAnswersSlverr : descSz 0x60014#20 = 0b11#2 ∧ descSz 0xFFFFF#20 = 0b11#2 := by decide

theorem witness_WindowReadsGiveZero :
    0x01000 ≤ (0x01000#17).toNat ∧ (0x01000#17).toNat % 4 = 0 ∧ 0x01000 ≤ (0x1FFFE#17).toNat ∧ (0x1FFFE#17).toNat % 2 = 0
      ∧ 0x01000 ≤ (0x1FFFC#17).toNat ∧ (0x1FFFC#17).toNat % 4 = 0 ∧ 0x01000 ≤ (0x1FFFF#17).toNat := by decide

/-- At each end of the tag words that hold a tag. -/
theorem witness_WordReadByTheMap :
    (0x0005C#17).toNat % 4 = 0 ∧ 0x040 ≤ (0x0005C#17).toNat ∧ (0x0005C#17).toNat < 0x060
      ∧ (0x00060#17).toNat % 4 = 0 ∧ ¬(0x00060#17).toNat < 0x060 := by decide

theorem witness_StatusHoldsItsFields :
    (inSeq .done 2).seq = .done ∧ (inSeq .done 2).ign = false ∧ (inSeq .done 2).errcode = 0 ∧ (inSeq .done 2).hcnt = 2 := by decide

/-- At both ends of the window, idle and BUSY. -/
theorem witness_KeyWindowTakesTheBytes :
    IsWrite 4 0x01000#17 1#32 (.wr32 0x01000#17 1#32) ∧ IsWrite 1 0x01FFF#17 1#32 (.wr8 0x01FFF#17 1#32)
      ∧ 0x01000 ≤ (0x01FFF#17).toNat ∧ (0x01FFF#17).toNat ≤ 0x01FFF ∧ (0x01FFF#17).toNat % 1 = 0
      ∧ State.reset.keyBuf.wf = true ∧ State.reset.busy = false ∧ (inSeq .check 0).keyBuf.wf = true
      ∧ (inSeq .check 0).busy = true := by
  unfold IsWrite; decide

theorem witness_MessageWindowTakesTheBytes :
    IsWrite 2 0x10000#17 1#32 (.wr16 0x10000#17 1#32) ∧ IsWrite 4 0x1FFFC#17 1#32 (.wr32 0x1FFFC#17 1#32)
      ∧ 0x10000 ≤ (0x1FFFC#17).toNat ∧ (0x1FFFC#17).toNat % 4 = 0 ∧ State.reset.msgBuf.wf = true
      ∧ State.reset.busy = false ∧ (inSeq .owait 2).msgBuf.wf = true ∧ (inSeq .owait 2).busy = true := by
  unfold IsWrite; decide

theorem witness_WideWriteIsFourByteWrites :
    InWindow 0x01FFC#17 ∧ (0x01FFC#17).toNat % 4 = 0 ∧ InWindow 0x1FFFC#17 ∧ (0x1FFFC#17).toNat % 4 = 0 := by
  unfold InWindow; decide

theorem witness_LengthWriteSetsTheLength : State.reset.busy = false ∧ (inSeq .norm 0).busy = true := by decide

/-- A read-only register, and reserved offsets below and above the key window. -/
theorem witness_ReadOnlyAndReservedWritesDoNothing :
    IsWrite 4 0x00014#17 1#32 (.wr32 0x00014#17 1#32) ∧ (0x00014#17).toNat % 4 = 0 ∧ ¬InWindow 0x00014#17
      ∧ IsWrite 1 0x02000#17 1#32 (.wr8 0x02000#17 1#32) ∧ ¬InWindow 0x02000#17 ∧ ¬(0x02000#17).toNat < 0x01000 := by
  unfold IsWrite InWindow; decide

/-- A guarded write of each shape. -/
theorem witness_GuardedWriteWhileBusyIsLost :
    Guarded (.wr8 0x01FFF#17 0) ∧ Guarded (.wr16 0x1FFFE#17 0) ∧ Guarded (.wr32 0x00010#17 0xFFFFFFF1#32)
      ∧ Guarded (.compute 0) ∧ (inSeq .check 0).busy = true ∧ (inSeq .owait 3).busy = true := by
  unfold Guarded InWindow; decide

theorem witness_ComputeStartsACall : (inSeq .error 3).seq = .idle ∨ (inSeq .error 3).seq = .done ∨ (inSeq .error 3).seq = .error := by
  decide

/-- The invariant at reset. -/
theorem reset_inv : Inv State.reset := ⟨⟨rfl, rfl, rfl, rfl⟩, rfl, ⟨rfl, rfl, rfl, rfl⟩, ⟨rfl, rfl⟩, rfl⟩

theorem witness_ClearRestoresReset :
    (State.reset.seq = .idle ∨ State.reset.seq = .done ∨ State.reset.seq = .error) ∧ Inv State.reset :=
  ⟨Or.inl rfl, reset_inv⟩

/-- CHECK, with these lengths and these turns to come. -/
def checking (keyLen msgLen : Word) (ts : List Turn) : State :=
  { inSeq .check 0 with keyLen := keyLen, msgLen := msgLen, agenda := ts }

theorem checking_inv (keyLen msgLen : Word) (ts : List Turn) : Inv (checking keyLen msgLen ts) :=
  ⟨⟨rfl, rfl, rfl, rfl⟩, rfl, ⟨rfl, rfl, rfl, rfl⟩, ⟨rfl, rfl⟩, rfl⟩

/-- The largest lengths that fit, and one byte more of each. -/
theorem witness_CheckComparesTheLengths :
    (checking 4096 65536 []).seq = .check ∧ (checking 4096 65536 []).keyLen.toNat ≤ 4096
      ∧ (checking 4096 65536 []).msgLen.toNat ≤ 65536 ∧ 4096 < (checking 4097 0 []).keyLen.toNat
      ∧ 65536 < (checking 0 65537 []).msgLen.toNat := by decide

theorem witness_ShortKeyIsPadded :
    (inSeq .norm 0).seq = .norm ∧ State.keyLen { inSeq .norm 0 with keyLen := 63 } = 63#32 ∧ (63#32).toNat < 64 := by decide

/-- Whether the run is BUSY after `m` steps. -/
def busyAfter (m : Nat) (s : State) : Bool :=
  match core.run m s with
  | .next u => u.busy
  | .fault _ => false
  | .refused _ => false

theorem busy_of_busyAfter {m : Nat} {s u : State} (h : busyAfter m s = true) (hr : core.run m s = .next u) : u.busy = true := by
  simpa [busyAfter, hr] using h

theorem completes_of_busyAfter {s t : State} {n : Nat} (hr : core.run n s = .next t) (hd : t.seq = .done)
    (h : ∀ m, m < n → busyAfter m s = true) : Completes s n t :=
  ⟨hr, fun m _ hm hu => busy_of_busyAfter (h m hm) hu, hd⟩

/-- The empty call and the call of 64 zero bytes, each uninterrupted: ten turns, and then DONE. -/
theorem witness_EmptyKeyIsAZeroBlock :
    ((inSeq .norm 0).seq = .norm ∧ (inSeq .norm 0).keyLen = 0#32
        ∧ State.keyLen { inSeq .norm 0 with keyLen := 64 } = 64#32 ∧ ∀ i, i < 64 → (inSeq .norm 0).keyBuf.read i = 0#8)
      ∧ Inv (checking 0 0 (callTurns false)) ∧ Inv (checking 64 0 (callTurns false))
      ∧ (∀ i, i < 64 → (checking 64 0 (callTurns false)).keyBuf.read i = 0#8)
      ∧ (checking 0 0 (callTurns false)).msg = (checking 64 0 (callTurns false)).msg
      ∧ (∃ t, Completes (checking 0 0 (callTurns false)) 10 t) ∧ ∃ t, Completes (checking 64 0 (callTurns false)) 10 t :=
  ⟨⟨rfl, rfl, rfl, fun _ _ => rfl⟩, checking_inv _ _ _, checking_inv _ _ _, fun _ _ => rfl, rfl,
    ⟨_, completes_of_busyAfter rfl rfl (by decide)⟩, _, completes_of_busyAfter rfl rfl (by decide)⟩

theorem witness_ExactKeyIsCopied :
    State.seq { inSeq .norm 0 with keyLen := 64 } = .norm ∧ (State.keyLen { inSeq .norm 0 with keyLen := 64 }).toNat = 64 := by decide

/-- The shortest and the longest key of this form. -/
theorem witness_LongKeyIsIssued :
    (inSeq .norm 0).seq = .norm ∧ 64 < (65#32).toNat ∧ 64 < (4096#32).toNat ∧ (4096#32).toNat ≤ 4096
      ∧ (inSeq .norm 0).hport = .empty ∧ (inSeq .norm 2).hcnt ≠ 3 := by decide

/-- A wait state, with this in the port. -/
def waiting (q : SeqState) (hcnt : BitVec 2) (h : HPort) : State := { inSeq q hcnt with hport := h }

/-- A digest, FailR, and no answer of the state's own purpose. -/
theorem witness_KeyHashIsConsumed :
    (waiting .kwait 1 (.rsp .key .failR)).seq = .kwait
      ∧ (waiting .kwait 1 (.rsp .key (.ok (zeros 32)))).hport = .rsp .key (.ok (zeros 32))
      ∧ (waiting .kwait 1 (.rsp .key .failR)).hport = .rsp .key .failR
      ∧ ∀ r, (waiting .kwait 1 (.rsp .inner .failR)).hport ≠ .rsp .key r :=
  ⟨rfl, rfl, rfl, fun r h => by cases h⟩

theorem witness_InnerHashIsConsumed :
    (waiting .iwait 1 (.rsp .inner .failR)).seq = .iwait
      ∧ (waiting .iwait 1 (.rsp .inner (.ok (zeros 32)))).hport = .rsp .inner (.ok (zeros 32))
      ∧ (waiting .iwait 1 (.rsp .inner .failR)).hport = .rsp .inner .failR
      ∧ ∀ r, (waiting .iwait 1 (.req .inner [])).hport ≠ .rsp .inner r :=
  ⟨rfl, rfl, rfl, fun r h => by cases h⟩

theorem witness_OuterHashGivesTheTag :
    (waiting .owait 2 (.rsp .outer .failR)).seq = .owait
      ∧ (waiting .owait 2 (.rsp .outer (.ok (zeros 32)))).hport = .rsp .outer (.ok (zeros 32))
      ∧ (waiting .owait 2 (.rsp .outer .failR)).hport = .rsp .outer .failR
      ∧ ∀ r, (waiting .owait 2 .empty).hport ≠ .rsp .outer r :=
  ⟨rfl, rfl, rfl, fun r h => by cases h⟩

/-- The key of 65 zero bytes, hashed, with the answer `r` in the port and these turns to come. -/
def keyHashed (r : HashResult) (ts : List Turn) : State :=
  { waiting .kwait 1 (.rsp .key r) with
    keyLen := 65, issues := [⟨.key, Memory.slice [] 65⟩], agenda := ts }

theorem keyHashed_inv (r : HashResult) (ts : List Turn) (hr : r = .ok (Config.H (Memory.slice [] 65)) ∨ r = .failR) :
    Inv (keyHashed r ts) := by
  refine ⟨⟨rfl, rfl, rfl, rfl⟩, ?_, ⟨rfl, rfl, rfl, rfl⟩, ⟨rfl, rfl⟩, ⟨?_, Nat.zero_le _⟩, ?_, ?_, [], ?_⟩
  · rcases hr with rfl | rfl
    · exact Or.inr (Or.inl rfl)
    · exact Or.inr (Or.inr rfl)
  · show (65#32).toNat ≤ 4096
    decide
  · show Config.B < (Memory.slice [] 65).length
    simp
  · show 1 = (keyRequests (Memory.slice [] 65)).length
    simp [keyRequests]
  · show [⟨.key, Memory.slice [] 65⟩] = [] ++ keyRequests (Memory.slice [] 65)
    simp [keyRequests]

/-- NORM, with the 64-byte key `H(65 zero bytes) || zeros(32)`. -/
def digestKey : State :=
  { inSeq .norm 0 with
    keyLen := 64, keyBuf := Memory.writeBytes Config.KEY_MAX [] 0 (Config.H (Memory.slice [] 65)).toList }

theorem digestKey_key : digestKey.key = (Config.H (Memory.slice [] 65)).toList ++ List.replicate 32 0#8 := by
  refine List.ext_getElem (by simp [State.key, digestKey]) fun i hi _ => ?_
  have hl : (Config.H (Memory.slice [] 65)).toList.length = 32 := by simp
  rw [List.getElem_append]
  simp only [State.key, Memory.getElem_slice]
  split
  · next h =>
    have := Memory.read_writeBytes_inside (bound := Config.KEY_MAX) (m := []) rfl 0 (Config.H (Memory.slice [] 65)).toList
      (k := i) (by omega) (by show 0 + i < 4096; omega)
    simpa [digestKey] using this
  · next h =>
    rw [List.getElem_replicate]
    exact Memory.read_writeBytes_outside Config.KEY_MAX [] 0 _ (Or.inr (by omega))

/-- CHECK, with that key. -/
def digestCall : State := { digestKey with seq := .check, agenda := callTurns false }

theorem digestCall_inv : Inv digestCall :=
  ⟨⟨Memory.wf_writeBytes (m := []) rfl _ _, Memory.within_writeBytes (m := []) rfl _ _, rfl, rfl⟩,
    rfl, ⟨rfl, rfl, rfl, rfl⟩, ⟨rfl, rfl⟩, rfl⟩

/-- The hashed key's state, the digest key's, and the two keys' calls. -/
theorem witness_OversizedKeyEquivalence :
    (Inv (keyHashed (.ok (Config.H (Memory.slice [] 65))) []) ∧ (keyHashed (.ok (Config.H (Memory.slice [] 65))) []).seq = .kwait
        ∧ (keyHashed (.ok (Config.H (Memory.slice [] 65))) []).hport = .rsp .key (.ok (Config.H (Memory.slice [] 65)))
        ∧ digestKey.seq = .norm ∧ digestKey.keyLen = 64#32
        ∧ digestKey.key = (Config.H (keyHashed (.ok (Config.H (Memory.slice [] 65))) []).key).toList ++ List.replicate 32 0#8)
      ∧ Inv (checking 65 0 (callTurns true)) ∧ Inv digestCall
      ∧ (checking 65 0 (callTurns true)).key = (keyHashed (.ok (Config.H (Memory.slice [] 65))) []).key
      ∧ digestCall.key = digestKey.key ∧ (checking 65 0 (callTurns true)).msg = digestCall.msg
      ∧ (∃ t, Completes (checking 65 0 (callTurns true)) 12 t) ∧ ∃ t, Completes digestCall 10 t :=
  ⟨⟨keyHashed_inv _ _ (Or.inl rfl), rfl, rfl, rfl, rfl, digestKey_key⟩, checking_inv _ _ _, digestCall_inv, rfl, rfl, rfl,
    ⟨_, completes_of_busyAfter rfl rfl (by decide)⟩, _, completes_of_busyAfter rfl rfl (by decide)⟩

/-- NORM with an empty key, at a Core turn. -/
def normalizing : State := { inSeq .norm 0 with agenda := [.core] }

theorem normalizing_inv : Inv normalizing :=
  ⟨⟨rfl, rfl, rfl, rfl⟩, rfl, ⟨rfl, rfl, rfl, rfl⟩, ⟨rfl, rfl⟩, rfl, ⟨by decide, by decide⟩⟩

/-- From NORM with a key in range, and from KWAIT with an oversized one. -/
theorem witness_KeyNormalizerContract :
    (Inv normalizing ∧ normalizing.seq ≠ .xipad ∧ ∃ t, step normalizing = .next t ∧ t.seq = .xipad)
      ∧ Inv (keyHashed (.ok (Config.H (Memory.slice [] 65))) [.core])
      ∧ (keyHashed (.ok (Config.H (Memory.slice [] 65))) [.core]).seq ≠ .xipad
      ∧ ∃ t, step (keyHashed (.ok (Config.H (Memory.slice [] 65))) [.core]) = .next t ∧ t.seq = .xipad :=
  ⟨⟨normalizing_inv, by decide, _, rfl, rfl⟩, keyHashed_inv _ _ (Or.inl rfl), by decide, _, rfl, rfl⟩

/-- A byte at the index `key_len` differs. -/
theorem witness_BytesPastTheKeyDoNotMatter :
    (∀ a, a < (inSeq .norm 0).keyLen.toNat → Memory.read [(0, 1)] a = (inSeq .norm 0).keyBuf.read a)
      ∧ ∃ t, exec .normShort (inSeq .norm 0) = .next t :=
  ⟨fun a h => absurd h (Nat.not_lt_zero a), _, rfl⟩

theorem witness_PadsAreXoredByteByByte : (inSeq .xipad 0).seq = .xipad ∧ (inSeq .xopad 0).seq = .xopad := ⟨rfl, rfl⟩

theorem witness_InnerBlockIsIssued :
    (inSeq .inner 1).seq = .inner ∧ (State.msgLen { inSeq .inner 1 with msgLen := 65536 }).toNat ≤ 65536
      ∧ (inSeq .inner 1).hport = .empty ∧ (inSeq .inner 1).hcnt ≠ 3 := by decide

theorem witness_OuterBlockIsIssued :
    (inSeq .outer 2).seq = .outer ∧ (inSeq .outer 2).hport = .empty ∧ (inSeq .outer 2).hcnt ≠ 3 := by decide

theorem witness_ReservedCodesAreRefused :
    (State.reset.seq.reserved = false ∧ ∃ t, step { State.reset with agenda := [.core] } = .next t)
      ∧ (inSeq .reservedC 0).seq.reserved = true ∧ errReserved (inSeq .reservedC 0).errcode = false
      ∧ State.nextTurn { inSeq .reservedF 0 with agenda := [.core] } = .core :=
  ⟨⟨rfl, _, rfl⟩, rfl, rfl, rfl⟩

theorem witness_ReservedErrcodeIsRefused :
    errReserved (State.errcode { State.reset with errcode := 3 }) = true
      ∧ State.nextTurn { State.reset with errcode := 3, agenda := [.core] } ≠ .reset
      ∧ errReserved (State.errcode { State.reset with errcode := 2 }) = false
      ∧ ∃ t, step { State.reset with errcode := 2, agenda := [.core] } = .next t :=
  ⟨rfl, by decide, rfl, _, rfl⟩

/-- With a request, and with none. -/
theorem witness_HashUnitAnswersARequest :
    (withTurns [.hashUnit true]).nextTurn = .hashUnit true ∧ errReserved (withTurns [.hashUnit true]).errcode = false
      ∧ (waiting .kwait 1 (.req .key [])).hport = .req .key []
      ∧ ∀ p data, (withTurns [.hashUnit true]).hport ≠ .req p data :=
  ⟨rfl, rfl, rfl, fun p data h => by cases h⟩

theorem witness_CoreHoldsWithoutAnAnswer :
    (waiting .owait 2 (.req .outer [])).seq = .owait ∧ (waiting .owait 2 (.req .outer [])).hport = .req .outer []
      ∧ errReserved (waiting .owait 2 (.req .outer [])).errcode = false
      ∧ State.agenda { waiting .owait 2 (.req .outer []) with agenda := [.core, .core, .reset] }
          = List.replicate 2 .core ++ [.reset] :=
  ⟨rfl, rfl, rfl, rfl⟩

theorem witness_HostReadsChangeNothing : ∃ t, exec (.rd32 0x00014#17) State.reset = .next t := ⟨_, rfl⟩

/-- A window write and a length write. -/
theorem witness_HostWriteFrame :
    (IsWrite 4 0x01000#17 1#32 (.wr32 0x01000#17 1#32) ∧ (0x01000#17).toNat ≠ 0x010
        ∧ target (0x01000#17).toNat = .keyWindow 0 ∧ ∃ t, exec (.wr32 0x01000#17 1#32) State.reset = .next t)
      ∧ IsWrite 4 0x00018#17 1#32 (.wr32 0x00018#17 1#32) ∧ ¬InWindow 0x00018#17 := by
  unfold IsWrite InWindow
  exact ⟨⟨by decide, by decide, by decide, _, rfl⟩, by decide, by decide⟩

theorem witness_CommandFrame :
    (∃ t, exec (.compute 0) State.reset = .next t) ∧ (∃ t, exec (.clear 0) (inSeq .check 0) = .next t)
      ∧ (inSeq .check 0).busy = true :=
  ⟨⟨_, rfl⟩, ⟨_, rfl⟩, rfl⟩

theorem witness_MicroOperationFrame :
    ¬FromHost .xipad ∧ (∃ t, exec .xipad (inSeq .xipad 0) = .next t) ∧ ∃ t, exec .check (checking 4097 0 []) = .next t :=
  ⟨fun h => h, ⟨_, rfl⟩, _, rfl⟩

/-- IGN set and cleared by CLEAR; IGN clear and set by a guarded write while BUSY. -/
theorem witness_IgnIsSticky :
    (∃ t, step { withTurns [.host 0xC0010#20 2#32] with ign := true } = .next t ∧ t.ign = false)
      ∧ ∃ t, step (checking 0 0 [.host 0xC0018#20 8#32]) = .next t ∧ t.ign = true :=
  ⟨⟨_, rfl, rfl⟩, _, rfl, rfl⟩

/-- ERRCODE written by CHECK, and cleared by a COMPUTE. -/
theorem witness_ErrcodeIsWrittenByFail :
    (∃ t, step (checking 4097 0 [.core]) = .next t ∧ t.errcode ≠ (checking 4097 0 [.core]).errcode)
      ∧ Restarts (withTurns [.host 0xC0010#20 1#32])
      ∧ ∃ t, step { inSeq .error 0 with errcode := 1, agenda := [.host 0xC0010#20 1#32] } = .next t ∧ t.errcode ≠ 1#4 :=
  ⟨⟨_, rfl, by decide⟩, Or.inr ⟨rfl, 0, Or.inl rfl⟩, _, rfl, by decide⟩

/-- A request is issued, and a CLEAR starts the count again. -/
theorem witness_HcntCountsTheRequests :
    (∃ t, step { inSeq .outer 1 with agenda := [.core] } = .next t ∧ t.hcnt = 2)
      ∧ Restarts { inSeq .done 3 with agenda := [.host 0xC0010#20 2#32] }
      ∧ ∃ t, step { inSeq .done 3 with agenda := [.host 0xC0010#20 2#32] } = .next t ∧ t.hcnt = 0 :=
  ⟨⟨_, rfl, rfl⟩, Or.inr ⟨rfl, 0, Or.inr rfl⟩, _, rfl, rfl⟩

/-- OWAIT writes a tag, and a reset zeroes one. -/
theorem witness_TagIsWrittenByFewSteps :
    (∃ t, step { waiting .owait 2 (.rsp .outer (.ok (xorAll 1 (zeros 32)))) with agenda := [.core] } = .next t
        ∧ t.tag ≠ zeros 32)
      ∧ Restarts (withTurns [.reset])
      ∧ ∃ t, step { inSeq .done 2 with tag := xorAll 1 (zeros 32), agenda := [.reset] } = .next t
          ∧ t.tag ≠ xorAll 1 (zeros 32) :=
  ⟨⟨_, rfl, by decide⟩, Or.inl rfl, _, rfl, by decide⟩

theorem witness_InputsAreFrozenWhileBusy :
    (checking 4 0 [.host 0xC0018#20 8#32]).busy = true
      ∧ ∃ t, step (checking 4 0 [.host 0xC0018#20 8#32]) = .next t ∧ t.busy = true :=
  ⟨rfl, _, rfl, rfl⟩

theorem witness_NothingIsRetained :
    (checking 4097 0 [.core]).busy = true ∧ ∃ t, step (checking 4097 0 [.core]) = .next t ∧ t.busy = false :=
  ⟨rfl, _, rfl, rfl⟩

theorem witness_SequencerFollowsTheTable :
    ∃ t, step (checking 4 0 [.core]) = .next t ∧ t.seq ≠ (checking 4 0 [.core]).seq := ⟨_, rfl, by decide⟩

/-- Two states that differ in a key byte. -/
theorem witness_HostLearnsNothingHidden :
    FromHost (.rd32 0x01000#17) ∧ SameVisible State.reset { State.reset with keyBuf := [(0, 1)] }
      ∧ ∃ t, exec (.rd32 0x01000#17) State.reset = .next t :=
  ⟨trivial, ⟨rfl, rfl, rfl, rfl, rfl, rfl, rfl⟩, _, rfl⟩

theorem witness_InvIsKept :
    Inv (checking 4 0 [.core]) ∧ ∃ t, step (checking 4 0 [.core]) = .next t := ⟨checking_inv _ _ _, _, rfl⟩

theorem witness_NoStopUnderTheInvariant : Inv (checking 4 0 [.core]) := checking_inv _ _ _

/-- IWAIT after the request for an empty message, answered FailR, with a key of this many zero bytes. -/
def innerFailed (keyLen : Word) (hcnt : BitVec 2) : State :=
  let key := Memory.slice [] keyLen.toNat
  { waiting .iwait hcnt (.rsp .inner .failR) with
    keyLen := keyLen
    k0 := normalizeKey key
    k0Ipad := xorAll Config.IPAD (normalizeKey key)
    k0Opad := xorAll Config.OPAD (normalizeKey key)
    issues := innerRequests key []
    agenda := [.core] }

theorem innerFailed_inv (keyLen : Word) (hcnt : BitVec 2) (hk : keyLen.toNat ≤ Config.KEY_MAX)
    (hc : hcnt.toNat = (innerRequests (Memory.slice [] keyLen.toNat) []).length) : Inv (innerFailed keyLen hcnt) :=
  ⟨⟨rfl, rfl, rfl, rfl⟩, Or.inr (Or.inr rfl), ⟨rfl, rfl, rfl, rfl⟩, ⟨rfl, rfl⟩, ⟨hk, Nat.zero_le _⟩, hc, [], rfl⟩

/-- OWAIT, the same. -/
def outerFailed (keyLen : Word) (hcnt : BitVec 2) : State :=
  let key := Memory.slice [] keyLen.toNat
  { innerFailed keyLen hcnt with
    seq := .owait, hport := .rsp .outer .failR, innerDigest := innerHash key [], issues := allRequests key [] }

theorem outerFailed_inv (keyLen : Word) (hcnt : BitVec 2) (hk : keyLen.toNat ≤ Config.KEY_MAX)
    (hc : hcnt.toNat = (allRequests (Memory.slice [] keyLen.toNat) []).length) : Inv (outerFailed keyLen hcnt) :=
  ⟨⟨rfl, rfl, rfl, rfl⟩, Or.inr (Or.inr rfl), ⟨rfl, rfl, rfl, rfl⟩, ⟨rfl, rfl⟩, ⟨hk, Nat.zero_le _⟩, hc, [], rfl⟩

/-- Each cause, with the key lengths 64 and 65 where they differ. -/
theorem witness_CallErrorsRecordTheirCause :
    (Inv (checking 4097 0 [.core]) ∧ ∃ t, step (checking 4097 0 [.core]) = .next t ∧ t.seq = .error)
      ∧ (Inv (checking 0 65537 [.core]) ∧ ∃ t, step (checking 0 65537 [.core]) = .next t ∧ t.seq = .error)
      ∧ (Inv (keyHashed .failR [.core]) ∧ ∃ t, step (keyHashed .failR [.core]) = .next t ∧ t.seq = .error)
      ∧ (Inv (innerFailed 64 1) ∧ ∃ t, step (innerFailed 64 1) = .next t ∧ t.seq = .error)
      ∧ (Inv (innerFailed 65 2) ∧ ∃ t, step (innerFailed 65 2) = .next t ∧ t.seq = .error)
      ∧ (Inv (outerFailed 64 2) ∧ ∃ t, step (outerFailed 64 2) = .next t ∧ t.seq = .error)
      ∧ Inv (outerFailed 65 3) ∧ ∃ t, step (outerFailed 65 3) = .next t ∧ t.seq = .error := by
  refine ⟨⟨checking_inv _ _ _, _, rfl, rfl⟩, ⟨checking_inv _ _ _, _, rfl, rfl⟩,
    ⟨keyHashed_inv _ _ (Or.inr rfl), _, rfl, rfl⟩,
    ⟨innerFailed_inv _ _ (by decide) ?_, _, rfl, rfl⟩, ⟨innerFailed_inv _ _ (by decide) ?_, _, rfl, rfl⟩,
    ⟨outerFailed_inv _ _ (by decide) ?_, _, rfl, rfl⟩, outerFailed_inv _ _ (by decide) ?_, _, rfl, rfl⟩ <;>
  simp [allRequests, innerRequests, keyRequests]

theorem witness_TagUnderEverySchedule :
    Inv (checking 0 0 (callTurns false)) ∧ (checking 0 0 (callTurns false)).seq = .check
      ∧ ∃ t, Completes (checking 0 0 (callTurns false)) 10 t :=
  ⟨checking_inv _ _ _, rfl, _, completes_of_busyAfter rfl rfl (by decide)⟩

/-- With the longest key that is not oversized, and the longest key. -/
theorem witness_UninterruptedCallReachesDone :
    (Inv (checking 64 0 (callTurns false)) ∧ Fits (checking 64 0 (callTurns false))
        ∧ (checking 64 0 (callTurns false)).agenda = callTurns (decide (64 < (64#32).toNat)) ++ [])
      ∧ Inv (checking 4096 65536 (callTurns true)) ∧ Fits (checking 4096 65536 (callTurns true))
      ∧ (checking 4096 65536 (callTurns true)).agenda = callTurns (decide (64 < (4096#32).toNat)) ++ [] := by
  unfold Fits
  exact ⟨⟨checking_inv _ _ _, by decide, by decide⟩, checking_inv _ _ _, by decide, by decide⟩

/-- A round with a Host access between the Core's turn and the HashUnit's. -/
theorem witness_CallEndsUnderFairTurns :
    Inv (checking 0 0 (List.replicate 12 [.core, readStatus, .hashUnit true]).flatten)
      ∧ (checking 0 0 (List.replicate 12 [.core, readStatus, .hashUnit true]).flatten).busy = true
      ∧ (List.replicate 12 [Turn.core, readStatus, .hashUnit true]).length = 12
      ∧ ∀ r ∈ List.replicate 12 [Turn.core, readStatus, .hashUnit true], FairRound true r := by
  refine ⟨checking_inv _ _ _, rfl, rfl, fun r hr => ?_⟩
  rw [List.eq_of_mem_replicate hr]
  exact ⟨by simp, fun _ => ⟨true, by simp⟩, by simp [readStatus, Undisturbed]⟩

end Sys2Proof.Tests
end

section
/-! PROOFS of the architectural state (spec file 10_state): STATUS, IGN, ERRCODE and the reset values. -/

namespace Sys2Proof.Machine

open Sys2Proof.Safety

/-! ### STATUS bit by bit (R32) -/

theorem getLsbD_flagWord (b : Bool) (i : Nat) : (flagWord b).getLsbD i = (decide (i = 0) && b) := by
  cases b <;> simp [flagWord, BitVec.getLsbD_one]

/-- Every field of STATUS at its place, and 0 above them. -/
theorem getLsbD_status (s : State) (i : Nat) :
    s.status.getLsbD i =
      if i < 4 then s.seq.code.getLsbD i
      else if i = 4 then s.busy
      else if i = 5 then s.done
      else if i = 6 then s.err
      else if i = 7 then s.ign
      else if i < 12 then s.errcode.getLsbD (i - 8)
      else if i < 14 then s.hcnt.getLsbD (i - 12)
      else false := by
  simp only [State.status, BitVec.getLsbD_or, BitVec.getLsbD_shiftLeft, BitVec.getLsbD_setWidth, getLsbD_flagWord]
  have hcode : 4 ≤ i → s.seq.code.getLsbD i = false := BitVec.getLsbD_of_ge _ _
  have herr : 4 ≤ i - 8 → s.errcode.getLsbD (i - 8) = false := BitVec.getLsbD_of_ge _ _
  have hcnt : 2 ≤ i - 12 → s.hcnt.getLsbD (i - 12) = false := BitVec.getLsbD_of_ge _ _
  split_ifs <;> grind

/-- The bits of a field of STATUS that starts at `lo`. -/
theorem extractLsb'_status_eq {s : State} {lo n : Nat} {field : BitVec n}
    (h : ∀ i, i < n → s.status.getLsbD (lo + i) = field.getLsbD i) : s.status.extractLsb' lo n = field :=
  BitVec.eq_of_getLsbD_eq fun i hi => by simp [hi, h i hi]

theorem status_state_field (s : State) : s.status.extractLsb' 0 4 = s.seq.code :=
  extractLsb'_status_eq fun i hi => by simp [getLsbD_status, hi]

theorem status_errcode_field (s : State) : s.status.extractLsb' 8 4 = s.errcode :=
  extractLsb'_status_eq fun i hi => by grind [getLsbD_status]

theorem status_hcnt_field (s : State) : s.status.extractLsb' 12 2 = s.hcnt :=
  extractLsb'_status_eq fun i hi => by grind [getLsbD_status]

theorem status_reserved_field (s : State) : s.status.extractLsb' 14 18 = 0#18 :=
  extractLsb'_status_eq fun i hi => by grind [getLsbD_status]

/-- The codes of the BUSY states are 0x1 to 0x9 (R26, R27). -/
theorem SeqState.busy_eq_code (q : SeqState) :
    q.busy = (decide (1 ≤ q.code.toNat) && decide (q.code.toNat ≤ 9)) := by cases q <;> rfl

/-- STATUS depends on the stored fields it shows only. -/
theorem status_congr (s t : State) (hq : s.seq = t.seq) (hi : s.ign = t.ign) (he : s.errcode = t.errcode)
    (hc : s.hcnt = t.hcnt) : s.status = t.status := by
  simp only [State.status, State.busy, State.done, State.err, hq, hi, he, hc]

theorem exec_rd32_status (s : State) : exec (.rd32 0x00014#17) s = .next (s.replyRead .okay s.status) :=
  @busRead_ok 4 0x00014#17 (State.readWord 0x00014#17) s rfl

/-- STATUS takes nothing written to it (R142). -/
theorem exec_wr32_status (data : Word) (s : State) :
    exec (.wr32 0x00014#17 data) s = .next (s.replyWrite .okay) :=
  @busWrite_ok 4 0x00014#17 (State.writeWord 0x00014#17 data) s rfl

/-! ### A turn that is taken -/

/-- A step with a reset turn resets HKB (R270). -/
theorem step_reset {s : State} (h : s.nextTurn = .reset) : step s = .next s.takeTurn.resetHkb := by
  rw [step, h]; rfl

/-- A Host's or platform's turn that makes a step performs the instruction its words decode to (R61, R130). -/
theorem step_hostInstr {s t : State} {i : Instr} (h : step s = .next t) (hi : hostInstr s.nextTurn = some i) :
    exec i s.takeTurn = .next t := by
  cases step_move h with
  | host j hj _ _ _ he _ => rw [hj, Option.some.injEq] at hi; exact hi ▸ he
  | core hn _ _ => rw [hn] at hi; cases hi
  | hashUnit ok hn => rw [hn] at hi; cases hi
  | reset hn => rw [hn] at hi; cases hi

/-- No bus word decodes to a WR32 at CTRL: it decodes to the command it carries (R104). -/
theorem decodeBus_ne_wr32_ctrl (desc : Desc) (data x : Word) : decodeBus desc data ≠ .wr32 0x00010#17 x :=
  fun h => ((decodeBus_fromHost desc data).2 _ x h).1 rfl

/-! ### Guarded writes while BUSY (R158) -/

/-- The state a guarded write leaves while BUSY: IGN is set, the Host gets OKAY, and nothing else changes. -/
def State.ignored (s : State) : State := { s with ign := true, reply := some ⟨.okay, none⟩ }

theorem replyWrite_guarded_busy (effect : State → State) {s : State} (h : s.busy = true) :
    State.replyWrite .okay (s.guarded effect) = s.ignored := by rw [State.guarded_busy effect s h]; rfl

/-- The target of an offset in a window is that window. -/
theorem target_of_inWindow {off : Offset} (h : InWindow off) :
    (∃ o, target off.toNat = .keyWindow o) ∨ ∃ o, target off.toNat = .msgWindow o :=
  h.imp (fun hk => ⟨_, target_keyWindow hk.1 hk.2⟩) (fun hm => ⟨_, target_msgWindow hm.1 hm.2⟩)

theorem replyWrite_writeNarrow_busy {off : Offset} (n : Nat) (data : Word) {s : State} (hw : InWindow off)
    (hb : s.busy = true) : State.replyWrite .okay (s.writeNarrow n off data) = s.ignored := by
  rcases target_of_inWindow hw with ⟨o, ho⟩ | ⟨o, ho⟩ <;> simp only [State.writeNarrow, ho] <;>
    exact replyWrite_guarded_busy _ hb

theorem replyWrite_writeWord_busy {off : Offset} (data : Word) {s : State} (hw : InWindow off)
    (hb : s.busy = true) : State.replyWrite .okay (s.writeWord off data) = s.ignored := by
  rcases target_of_inWindow hw with ⟨o, ho⟩ | ⟨o, ho⟩ <;> simp only [State.writeWord, ho] <;>
    exact replyWrite_guarded_busy _ hb

/-- COMPUTE and CLEAR are ignored while BUSY. -/
theorem replyWrite_command_busy {data : Word} {s : State} (hc : cmdCode data = 0x1#4 ∨ cmdCode data = 0x2#4)
    (hb : s.busy = true) : State.replyWrite .okay (s.command data) = s.ignored := by
  rcases hc with hc | hc <;> simp only [State.command, hc] <;>
    exact replyWrite_guarded_busy _ hb

/-- While BUSY a guarded write only sets IGN. -/
theorem exec_guarded_busy {i : Instr} {s : State} (hg : Guarded i) (hb : s.busy = true) :
    exec i s = .next s.ignored := by
  cases i <;> simp only [Guarded] at hg <;> simp only [exec]
  case wr8 off data =>
    rw [execWr8, busWrite_ok _ _ (accessOk_of_window hg (Nat.mod_one _)), replyWrite_writeNarrow_busy _ _ hg hb]
  case wr16 off data =>
    rw [execWr16, busWrite_ok _ _ (accessOk_of_window hg.1 hg.2), replyWrite_writeNarrow_busy _ _ hg.1 hb]
  case wr32 off data =>
    rw [execWr32]
    rcases hg with ⟨hw, ha⟩ | rfl | rfl | ⟨rfl, hc⟩
    · rw [busWrite_ok _ _ (accessOk_of_window hw ha), replyWrite_writeWord_busy _ hw hb]
    · exact congrArg _ (replyWrite_guarded_busy _ hb)
    · exact congrArg _ (replyWrite_guarded_busy _ hb)
    · exact congrArg _ (replyWrite_command_busy hc hb)
  all_goals exact congrArg _ (replyWrite_guarded_busy _ hb)

/-! ### The accepted commands and the events that restart the machine (R150, R152, R270) -/

theorem exec_compute_free {rest : BitVec 28} {s : State} (h : s.busy = false) :
    exec (.compute rest) s = .next (s.startCall.replyWrite .okay) := by
  simp only [exec, execCompute, State.guarded_free _ s h]

theorem exec_clear_free {rest : BitVec 28} {s : State} (h : s.busy = false) :
    exec (.clear rest) s = .next (s.clearAll.replyWrite .okay) := by
  simp only [exec, execClear, State.guarded_free _ s h]

/-- The three ways a step restarts the machine. -/
theorem step_restart {s t : State} (h : step s = .next t) (hr : Restarts s) :
    t = s.takeTurn.resetHkb ∨ t = s.takeTurn.startCall.replyWrite .okay
      ∨ t = s.takeTurn.clearAll.replyWrite .okay := by
  rcases hr with hn | ⟨hb, rest, hi | hi⟩
  · rw [step_reset hn] at h; cases h; exact .inl rfl
  · have he := step_hostInstr h hi
    rw [exec_compute_free (by simpa using hb)] at he; cases he; exact .inr (.inl rfl)
  · have he := step_hostInstr h hi
    rw [exec_clear_free (by simpa using hb)] at he; cases he; exact .inr (.inr rfl)

/-! ### What a move does to IGN (R28) -/

theorem CoreMove.ign_eq {s t : State} (h : CoreMove s t) : t.ign = s.ign := by cases h <;> rfl

/-- IGN after an instruction of the Host's. The premise holds of every decoded instruction
(`decodeBus_ne_wr32_ctrl`). -/
theorem HostMove.ign_cases {s t : State} {i : Instr} (h : HostMove s i t) (hc : ∀ x, i ≠ .wr32 0x00010#17 x) :
    t.ign = s.ign ∨ (t.ign = false ∧ s.busy = false ∧ ∃ rest, i = .clear rest)
      ∨ (t.ign = true ∧ ((s.busy = true ∧ Guarded i) ∨ ∃ cmd rest, i = .rsvd cmd rest)) := by
  cases h with
  | replies => exact .inl rfl
  | lost _ hg hb => exact .inr (.inr ⟨rfl, .inl ⟨hb, hg⟩⟩)
  | keyBytes => exact .inl rfl
  | msgBytes => exact .inl rfl
  | keyLength => exact .inl rfl
  | msgLength => exact .inl rfl
  | started => exact .inl rfl
  | cleared _ hi hf => exact .inr (.inl ⟨rfl, hf, hi.resolve_right fun ⟨x, hx⟩ => hc x hx⟩)
  | reserved _ hi => exact .inr (.inr ⟨rfl, .inr (hi.resolve_right fun ⟨x, hx⟩ => hc x hx)⟩)

/-- IGN after a step: kept, or written by one of the listed events. -/
theorem step_ign_cases {s t : State} (h : step s = .next t) :
    t.ign = s.ign
      ∨ (t.ign = false
          ∧ (s.nextTurn = .reset ∨ (s.busy = false ∧ ∃ rest, hostInstr s.nextTurn = some (.clear rest))))
      ∨ (t.ign = true
          ∧ ∃ i, hostInstr s.nextTurn = some i
              ∧ ((s.busy = true ∧ Guarded i) ∨ ∃ cmd rest, i = .rsvd cmd rest)) := by
  cases step_move h with
  | host i hi hd _ _ _ hm =>
    obtain ⟨desc, data, rfl⟩ := hd
    rcases hm.ign_cases (decodeBus_ne_wr32_ctrl desc data) with hk | ⟨ht, hb, rest, hr⟩ | ⟨ht, hw⟩
    · exact .inl (by simpa using hk)
    · exact .inr (.inl ⟨ht, .inr ⟨by simpa using hb, rest, hr ▸ hi⟩⟩)
    · exact .inr (.inr ⟨ht, _, hi, by simpa using hw⟩)
  | core _ _ hm => exact .inl (by simpa using hm.ign_eq)
  | hashUnit ok => exact .inl (by simp)
  | reset hn => exact .inr (.inl ⟨rfl, .inl hn⟩)

/-- A reset and an accepted CLEAR clear IGN. -/
theorem step_clears_ign {s t : State} (h : step s = .next t)
    (he : s.nextTurn = .reset ∨ (s.busy = false ∧ ∃ rest, hostInstr s.nextTurn = some (.clear rest))) :
    t.ign = false := by
  rcases he with hn | ⟨hb, rest, hi⟩
  · rw [step_reset hn] at h; cases h; rfl
  · have hx := step_hostInstr h hi
    rw [exec_clear_free (by simpa using hb)] at hx; cases hx; rfl

/-- A guarded write while BUSY and a reserved command set IGN. -/
theorem step_sets_ign {s t : State} {i : Instr} (h : step s = .next t) (hi : hostInstr s.nextTurn = some i)
    (he : (s.busy = true ∧ Guarded i) ∨ ∃ cmd rest, i = .rsvd cmd rest) : t.ign = true := by
  have hx := step_hostInstr h hi
  rcases he with ⟨hb, hg⟩ | ⟨cmd, rest, rfl⟩
  · rw [exec_guarded_busy hg (by simpa using hb)] at hx; cases hx; rfl
  · cases hx; rfl

/-! ### What a move does to ERRCODE (R29) -/

/-- Only Fail writes ERRCODE in a Core step: from CHECK, or from a wait state (R170, R212). -/
theorem CoreMove.errcode_cases {s t : State} (h : CoreMove s t) :
    t.errcode = s.errcode
      ∨ (t.seq = .error
          ∧ ((s.seq = .check ∧ t.errcode = errInvalidSize)
            ∨ ((s.seq = .kwait ∨ s.seq = .iwait ∨ s.seq = .owait) ∧ t.errcode = errHashFail))) := by
  cases h with
  | checkBad hs => exact .inr ⟨rfl, .inl ⟨hs, rfl⟩⟩
  | kwaitBad hs => exact .inr ⟨rfl, .inr ⟨.inl hs, rfl⟩⟩
  | iwaitBad hs => exact .inr ⟨rfl, .inr ⟨.inr (.inl hs), rfl⟩⟩
  | owaitBad hs => exact .inr ⟨rfl, .inr ⟨.inr (.inr hs), rfl⟩⟩
  | _ => exact .inl rfl

/-- Only an accepted COMPUTE or CLEAR writes ERRCODE in a step of the Host's. -/
theorem HostMove.errcode_cases {s t : State} {i : Instr} (h : HostMove s i t) (hc : ∀ x, i ≠ .wr32 0x00010#17 x) :
    t.errcode = s.errcode ∨ (s.busy = false ∧ ∃ rest, i = .compute rest ∨ i = .clear rest) := by
  cases h with
  | started _ hi hf =>
    obtain ⟨rest, hr⟩ := hi.resolve_right fun ⟨x, hx⟩ => hc x hx
    exact .inr ⟨hf, rest, .inl hr⟩
  | cleared _ hi hf =>
    obtain ⟨rest, hr⟩ := hi.resolve_right fun ⟨x, hx⟩ => hc x hx
    exact .inr ⟨hf, rest, .inr hr⟩
  | _ => exact .inl rfl

theorem step_restart_errcode {s t : State} (h : step s = .next t) (hr : Restarts s) : t.errcode = errNone := by
  rcases step_restart h hr with rfl | rfl | rfl <;> rfl

/-- ERRCODE after a step: kept, written by a Fail of the Core's, or zeroed by a restart. -/
theorem step_errcode_cases {s t : State} (h : step s = .next t) :
    t.errcode = s.errcode
      ∨ (s.nextTurn = .core ∧ t.seq = .error
          ∧ ((s.seq = .check ∧ t.errcode = errInvalidSize)
            ∨ ((s.seq = .kwait ∨ s.seq = .iwait ∨ s.seq = .owait) ∧ t.errcode = errHashFail)))
      ∨ Restarts s := by
  cases step_move h with
  | host i hi hd _ _ _ hm =>
    obtain ⟨desc, data, rfl⟩ := hd
    rcases hm.errcode_cases (decodeBus_ne_wr32_ctrl desc data) with hk | ⟨hb, rest, hr⟩
    · exact .inl (by simpa using hk)
    · exact .inr (.inr (.inr ⟨by simpa using hb, rest, by simpa [hi] using hr⟩))
  | core hn _ hm => exact hm.errcode_cases.imp (by simp) fun hf => .inl ⟨hn, by simpa using hf⟩
  | hashUnit ok => exact .inl (by simp)
  | reset hn => exact .inr (.inr (.inl hn))

end Sys2Proof.Machine

/-! ### The obligations of the state -/

namespace Sys2Proof.Proofs

open Sys2Proof.Machine Sys2Proof.Safety

/-- Settles O14: STATUS is read and kept by the access rules, and each field by its bits. -/
theorem statusHoldsItsFields : Obligations.StatusHoldsItsFields := by
  unfold Obligations.StatusHoldsItsFields
  intro s data
  refine ⟨exec_rd32_status s, exec_wr32_status data s, status_state_field s, ?_, ?_, ?_, ?_,
    status_errcode_field s, status_hcnt_field s, status_reserved_field s, ?_⟩
  · exact (getLsbD_status s 4).trans s.seq.busy_eq_code
  · exact getLsbD_status s 5
  · exact getLsbD_status s 6
  · exact getLsbD_status s 7
  · intro hq hi he hc
    exact status_congr s { State.reset with seq := .done, hcnt := 2 } hq hi he hc

/-- Settles O46: the listed events write IGN, and every move of another kind keeps it. -/
theorem ignIsSticky : Obligations.IgnIsSticky := by
  unfold Obligations.IgnIsSticky
  intro s t h
  refine ⟨fun hs => ⟨fun ht => ?_, step_clears_ign h⟩,
    fun hs => ⟨fun ht => ?_, fun ⟨_, hi, he⟩ => step_sets_ign h hi he⟩⟩
  · rcases step_ign_cases h with hk | ⟨-, hc⟩ | ⟨ht', -⟩
    · simp [hk, hs] at ht
    · exact hc
    · simp [ht'] at ht
  · rcases step_ign_cases h with hk | ⟨ht', -⟩ | ⟨-, hw⟩
    · simp [hk, hs] at ht
    · simp [ht'] at ht
    · exact hw

/-- Settles O47: a step that changes ERRCODE is a Fail or a restart, and every restart leaves 0. -/
theorem errcodeIsWrittenByFail : Obligations.ErrcodeIsWrittenByFail := by
  unfold Obligations.ErrcodeIsWrittenByFail
  intro s t h
  refine ⟨step_restart_errcode h, fun hne => ?_⟩
  rcases step_errcode_cases h with hk | hf | hr
  · exact absurd hk hne
  · exact .inl hf
  · exact .inr ⟨step_restart_errcode h hr, hr⟩

/-- Settles O1: each listed value is the reset state's own, and the hardwired registers read none of the state. -/
theorem resetHoldsTheListedValues : Obligations.ResetHoldsTheListedValues := by
  unfold Obligations.ResetHoldsTheListedValues
  have wiped : Wiped State.reset := ⟨fun _ => rfl, fun _ => rfl, rfl, rfl, rfl, rfl, rfl, rfl⟩
  exact ⟨⟨rfl, rfl, rfl, rfl, wiped, rfl, rfl⟩, rfl, fun s => ⟨rfl, rfl, rfl, rfl, rfl, rfl⟩⟩

end Sys2Proof.Proofs
end

section
/-! PROOFS of the host space (spec file 20_memory): the access check, the platform's window and the two buffers'
windows. -/

namespace Sys2Proof.Machine

open Sys2Proof.Safety

/-! ### The reads of the window region (R66) -/

/-- From 0x01000 on an offset names a window's byte or nothing (R60). -/
theorem target_windowRegion {off : Nat} (h : 0x01000 ≤ off) :
    (∃ o, target off = .keyWindow o) ∨ (∃ o, target off = .msgWindow o) ∨ target off = .reserved := by
  by_cases hk : off ≤ 0x01FFF
  · exact .inl ⟨_, target_keyWindow h hk⟩
  by_cases hm : 0x10000 ≤ off ∧ off ≤ 0x1FFFF
  · exact .inr (.inl ⟨_, target_msgWindow hm.1 hm.2⟩)
  · refine .inr (.inr ?_)
    unfold target; repeat rw [if_neg (by omega)]

theorem readWord_windowRegion {off : Offset} (s : State) (h : 0x01000 ≤ off.toNat) : s.readWord off = 0 := by
  rcases target_windowRegion h with ⟨o, ho⟩ | ⟨o, ho⟩ | ho <;> simp only [State.readWord, ho]

theorem accessOk_windowRegion {n off : Nat} (h : 0x01000 ≤ off) (ha : off % n = 0) : accessOk n off = true :=
  (accessOk_iff n off).mpr ⟨ha, fun hlt => absurd h (not_le.mpr hlt)⟩

/-! ### An access by its size code (R64, R102, R103) -/

theorem sizeCode_cases (sz : BitVec 2) : sz = 0b00#2 ∨ sz = 0b01#2 ∨ sz = 0b10#2 ∨ sz = 0b11#2 := by
  revert sz; decide

theorem size_of_sizeCode {sz : BitVec 2} (h : sz ≠ 0b11#2) :
    2 ^ sz.toNat = 1 ∨ 2 ^ sz.toNat = 2 ∨ 2 ^ sz.toNat = 4 := by
  revert sz; decide

/-- A word write does the same by the row it decodes to and by its offset (R142). -/
theorem exec_decodeWr32 (off : Offset) (data : Word) (s : State) :
    exec (decodeWr32 off data) s = busWrite 4 off (State.writeWord off data) s := by
  unfold decodeWr32
  split_ifs with hctrl hkey hmsg
  · subst hctrl
    rw [busWrite_ok _ _ rfl, show s.writeWord 0x00010#17 data = s.command data from rfl]
    unfold decodeCmd State.command
    split_ifs <;> rfl
  · subst hkey; rfl
  · subst hmsg; rfl
  · rfl

/-- A read of a legal size is a read of that many bytes. -/
theorem exec_decodeBus_read {sz : BitVec 2} (hsz : sz ≠ 0b11#2) (off : Offset) (data : Word) (s : State) :
    ∃ value, exec (decodeBus (mkDesc false sz off) data) s = busRead (2 ^ sz.toNat) off value s := by
  simp only [decodeBus, descSz_mkDesc, descW_mkDesc, descOff_mkDesc, if_neg hsz]
  rcases sizeCode_cases sz with rfl | rfl | rfl | rfl
  · exact ⟨fun _ => 0, rfl⟩
  · exact ⟨fun _ => 0, rfl⟩
  · exact ⟨State.readWord off, rfl⟩
  · exact absurd rfl hsz

/-- A write of a legal size is a write of that many bytes. -/
theorem exec_decodeBus_write {sz : BitVec 2} (hsz : sz ≠ 0b11#2) (off : Offset) (data : Word) (s : State) :
    ∃ effect, exec (decodeBus (mkDesc true sz off) data) s = busWrite (2 ^ sz.toNat) off effect s := by
  simp only [decodeBus, descSz_mkDesc, descW_mkDesc, descOff_mkDesc, if_neg hsz]
  rcases sizeCode_cases sz with rfl | rfl | rfl | rfl
  · exact ⟨State.writeNarrow 1 off data, rfl⟩
  · exact ⟨State.writeNarrow 2 off data, rfl⟩
  · exact ⟨State.writeWord off data, exec_decodeWr32 off data s⟩
  · exact absurd rfl hsz

/-- The state an access with SLVERR leaves: only the reply is new, and a read gets 0 (R64). -/
def State.slverr (w : Bool) (s : State) : State := { s with reply := some ⟨.slverr, if w then none else some 0⟩ }

theorem exec_decodeBus_illegalSize (w : Bool) (off : Offset) (data : Word) (s : State) :
    exec (decodeBus (mkDesc w 0b11#2 off) data) s = .next (s.slverr w) := by
  simp only [decodeBus, descSz_mkDesc, descW_mkDesc, if_pos]
  cases w <;> rfl

/-- An access that fails the check gets SLVERR. -/
theorem exec_decodeBus_slverr {sz : BitVec 2} {off : Offset} (w : Bool) (data : Word) (s : State)
    (h : accessOk (2 ^ sz.toNat) off.toNat = false) :
    exec (decodeBus (mkDesc w sz off) data) s = .next (s.slverr w) := by
  by_cases hsz : sz = 0b11#2
  · subst hsz; exact exec_decodeBus_illegalSize w off data s
  cases w with
  | false => obtain ⟨value, he⟩ := exec_decodeBus_read hsz off data s; rw [he, busRead_slverr _ _ h]; rfl
  | true => obtain ⟨effect, he⟩ := exec_decodeBus_write hsz off data s; rw [he, busWrite_slverr _ _ h]; rfl

/-- An access of a legal size that passes the check gets OKAY, and a read word exactly when it is a read. -/
theorem exec_decodeBus_okay {sz : BitVec 2} {off : Offset} (w : Bool) (data : Word) (s : State) (hsz : sz ≠ 0b11#2)
    (h : accessOk (2 ^ sz.toNat) off.toNat = true) :
    ∃ t v, exec (decodeBus (mkDesc w sz off) data) s = .next t ∧ t.reply = some ⟨.okay, v⟩
      ∧ (v = none ↔ w = true) := by
  cases w with
  | false =>
    obtain ⟨value, he⟩ := exec_decodeBus_read hsz off data s
    exact ⟨_, _, he.trans (busRead_ok _ _ h), rfl, by simp⟩
  | true =>
    obtain ⟨effect, he⟩ := exec_decodeBus_write hsz off data s
    exact ⟨_, _, he.trans (busWrite_ok _ _ h), rfl, by simp⟩

/-- The check on an access of a legal size, in the words of R64: the size code of 4 bytes is 0b10. -/
theorem accessOk_size_iff {sz : BitVec 2} (off : Nat) :
    accessOk (2 ^ sz.toNat) off = true ↔ ¬(off % 2 ^ sz.toNat ≠ 0 ∨ (off < 0x01000 ∧ sz ≠ 0b10#2)) := by
  have h4 : 2 ^ sz.toNat = 4 ↔ sz = 0b10#2 := by revert sz; decide
  rw [accessOk_iff, h4]
  tauto

/-- A region whose start and length are multiples of every access size holds all the bytes of an aligned access that
starts in it. -/
theorem aligned_access_fits {n lo len off : Nat} (hn : n = 1 ∨ n = 2 ∨ n = 4) (hlo : lo % 4 = 0) (hlen : len % 4 = 0)
    (hoff : lo ≤ off ∧ off < lo + len) (ha : off % n = 0) : off - lo + n ≤ len := by
  rcases hn with rfl | rfl | rfl <;> omega

/-! ### The platform's accesses (R61) -/

theorem BASE_mod : Config.BASE % 0x20000 = 0 := Nat.mul_mod_right _ _

/-- A platform's turn is its access, in a state of legal codes. -/
theorem step_bus {s : State} {addr : Nat} {w : Bool} {sz : BitVec 2} {data : Word}
    (hn : s.nextTurn = .bus addr w sz data) (he : errReserved s.errcode = false) :
    step s = busTurn addr w sz data s.takeTurn := by
  rw [step, hn]
  exact legalTurn_ok (by simpa using he)

theorem busTurn_outside {addr : Nat} (w : Bool) (sz : BitVec 2) (data : Word) (s : State)
    (h : ¬(Config.BASE ≤ addr ∧ addr < Config.BASE + 0x20000)) :
    busTurn addr w sz data s = .refused (.outsideWindow addr) := if_neg h

/-- The access at `BASE + off` is the Host access at `off`. -/
theorem busTurn_base_add (off : Offset) (w : Bool) (sz : BitVec 2) (data : Word) {s : State}
    (hq : s.seq.reserved = false) :
    busTurn (Config.BASE + off.toNat) w sz data s = exec (decodeBus (mkDesc w sz off) data) s := by
  have hlt : off.toNat < 0x20000 := off.isLt
  rw [busTurn_inside _ _ _ _ ⟨Nat.le_add_right _ _, by omega⟩, hostTurn_ok hq, busDesc, Nat.add_sub_cancel_left,
    BitVec.ofNat_toNat, BitVec.setWidth_eq]

/-- An access of a legal size that crosses the end of the 128 KiB window fails the check. -/
theorem accessOk_crossing {sz : BitVec 2} {off : Nat} (hsz : sz ≠ 0b11#2) (hlt : off < 0x20000)
    (hc : 0x20000 < off + 2 ^ sz.toNat) : accessOk (2 ^ sz.toNat) off = false := by
  refine Bool.eq_false_iff.mpr fun h => not_le.mpr hc ?_
  exact aligned_access_fits (lo := 0) (size_of_sizeCode hsz) rfl rfl ⟨Nat.zero_le _, by omega⟩ ((accessOk_iff _ _).mp h).1

/-! ### Window writes (R67-R69) -/

theorem size_of_isWrite {n : Nat} {off : Offset} {data : Word} {i : Instr} (h : IsWrite n off data i) :
    n = 1 ∨ n = 2 ∨ n = 4 := h.imp And.left (Or.imp And.left And.left)

/-- In a window a word write takes its bytes as a narrow one does. -/
theorem writeWord_of_inWindow {off : Offset} (data : Word) (s : State) (h : InWindow off) :
    s.writeWord off data = s.writeNarrow 4 off data := by
  rcases target_of_inWindow h with ⟨o, ho⟩ | ⟨o, ho⟩ <;> simp only [State.writeWord, State.writeNarrow, ho]

/-- An aligned write in a window, whatever its size. -/
theorem exec_windowWrite {n : Nat} {off : Offset} {data : Word} {i : Instr} (s : State) (hi : IsWrite n off data i)
    (hw : InWindow off) (ha : off.toNat % n = 0) :
    exec i s = .next (State.replyWrite .okay (s.writeNarrow n off data)) := by
  have hok := accessOk_of_window hw ha
  rcases hi with ⟨rfl, rfl⟩ | ⟨rfl, rfl⟩ | ⟨rfl, rfl⟩
  · exact busWrite_ok _ s hok
  · exact busWrite_ok _ s hok
  · rw [← writeWord_of_inWindow data s hw]
    exact busWrite_ok _ s hok

theorem writeNarrow_keyWindow {off : Offset} (n : Nat) (data : Word) (s : State) (h : 0x01000 ≤ off.toNat)
    (h' : off.toNat ≤ 0x01FFF) :
    s.writeNarrow n off data = s.writeKeyWindow (off.toNat - 0x01000) (unbe n data) := by
  simp only [State.writeNarrow, target_keyWindow h h']

theorem writeNarrow_msgWindow {off : Offset} (n : Nat) (data : Word) (s : State) (h : 0x10000 ≤ off.toNat) :
    s.writeNarrow n off data = s.writeMsgWindow (off.toNat - 0x10000) (unbe n data) := by
  simp only [State.writeNarrow, target_msgWindow h (Nat.le_of_lt_succ off.isLt)]

/-- `m'` is `m` with the `n` bytes of `data` from index `o` on, most significant first, and is canonical. -/
def Memory.Stored (m m' : Memory) (n o : Nat) (data : Word) : Prop :=
  (∀ k, k < n → m'.read (o + k) = data.extractLsb' (8 * (n - 1 - k)) 8)
    ∧ (∀ a, a < o ∨ o + n ≤ a → m'.read a = m.read a)
    ∧ m'.wf = true

/-- Bytes that fit below the bound are all stored. -/
theorem Memory.stored_writeBytes {bound n o : Nat} {m : Memory} (data : Word) (h : m.wf = true)
    (hfit : o + n ≤ bound) : m.Stored (m.writeBytes bound o (unbe n data)) n o data := by
  refine ⟨fun k hk => ?_, fun a ha => ?_, Memory.wf_writeBytes h _ _⟩
  · rw [Memory.read_writeBytes_inside h o _ (by simpa using hk) (by omega), getElem_unbe]
  · exact Memory.read_writeBytes_outside _ _ _ _ (by simpa using ha)

end Sys2Proof.Machine

/-! ### The obligations of the host space -/

namespace Sys2Proof.Proofs

open Sys2Proof.Machine Sys2Proof.Safety

/-- Settles O5: inside the window an access is the Host access at its offset, and one that crosses the end is
misaligned there. -/
theorem platformAccessUsesItsOffset : Obligations.PlatformAccessUsesItsOffset := by
  unfold Obligations.PlatformAccessUsesItsOffset
  refine ⟨BASE_mod, fun s addr w sz data hn he hq => ?_⟩
  rw [step_bus hn he]
  have hq' : s.takeTurn.seq.reserved = false := by simpa using hq
  refine ⟨fun hout => busTurn_outside w sz data _ (by omega), ?_, fun hlt hcross hsz hge => ⟨_, ?_, rfl⟩⟩
  · rintro off rfl
    exact busTurn_base_add off w sz data hq'
  · obtain ⟨o, rfl⟩ := Nat.exists_eq_add_of_le hge
    have ho : o < 0x20000 := by omega
    have hbad := accessOk_crossing hsz ho (by omega)
    have hoff : (BitVec.ofNat 17 o).toNat = o := Nat.mod_eq_of_lt ho
    rw [← hoff] at hbad ⊢
    rw [busTurn_base_add _ w sz data hq', exec_decodeBus_slverr w data _ hbad]
    rfl

/-- Settles O10: the listed accesses are those with an illegal size or a failed check. -/
theorem slverrExactly : Obligations.SlverrExactly := by
  unfold Obligations.SlverrExactly
  intro w sz off data s
  by_cases hbad : sz = 0b11#2 ∨ off.toNat % 2 ^ sz.toNat ≠ 0 ∨ (off.toNat < 0x01000 ∧ sz ≠ 0b10#2)
  · refine ⟨s.slverr w, ?_, fun _ => rfl, fun h => absurd hbad h⟩
    rcases hbad with rfl | hcheck
    · exact exec_decodeBus_illegalSize w off data s
    · exact exec_decodeBus_slverr w data s (Bool.eq_false_iff.mpr fun h => (accessOk_size_iff _).mp h hcheck)
  · obtain ⟨hsz, hcheck⟩ := not_or.mp hbad
    obtain ⟨t, v, he, hr, hv⟩ := exec_decodeBus_okay w data s hsz ((accessOk_size_iff _).mpr hcheck)
    exact ⟨t, he, fun h => absurd h hbad, fun _ => ⟨v, hr, hv⟩⟩

/-- Settles O15: the write's bytes all lie in the window, because an aligned write does not cross its end. -/
theorem keyWindowTakesTheBytes : Obligations.KeyWindowTakesTheBytes := by
  unfold Obligations.KeyWindowTakesTheBytes
  intro n off data i s hi hlo hhi ha hwf
  rw [exec_windowWrite s hi (.inl ⟨hlo, hhi⟩) ha, writeNarrow_keyWindow n data s hlo hhi, State.writeKeyWindow]
  refine ⟨fun hb => ⟨_, rfl, ?_⟩, fun hb => congrArg _ (replyWrite_guarded_busy _ hb)⟩
  rw [State.guarded_free _ s hb]
  have hfit : off.toNat - 0x01000 + n ≤ Config.KEY_MAX :=
    aligned_access_fits (size_of_isWrite hi) rfl rfl ⟨hlo, Nat.lt_succ_of_le hhi⟩ ha
  exact ⟨rfl, Memory.stored_writeBytes data hwf hfit⟩

/-- Settles O16, as O15 with the message window's end. -/
theorem messageWindowTakesTheBytes : Obligations.MessageWindowTakesTheBytes := by
  unfold Obligations.MessageWindowTakesTheBytes
  intro n off data i s hi hlo ha hwf
  have hhi : off.toNat ≤ 0x1FFFF := Nat.le_of_lt_succ off.isLt
  rw [exec_windowWrite s hi (.inr ⟨hlo, hhi⟩) ha, writeNarrow_msgWindow n data s hlo, State.writeMsgWindow]
  refine ⟨fun hb => ⟨_, rfl, ?_⟩, fun hb => congrArg _ (replyWrite_guarded_busy _ hb)⟩
  rw [State.guarded_free _ s hb]
  have hfit : off.toNat - 0x10000 + n ≤ Config.MSG_MAX :=
    aligned_access_fits (size_of_isWrite hi) rfl rfl ⟨hlo, Nat.lt_succ_of_le hhi⟩ ha
  exact ⟨rfl, Memory.stored_writeBytes data hwf hfit⟩

/-- Settles O12: the check passes, and the window region reads 0. -/
theorem windowReadsGiveZero : Obligations.WindowReadsGiveZero := by
  unfold Obligations.WindowReadsGiveZero
  intro off s h
  refine ⟨busRead_ok (fun _ => 0) s (accessOk_windowRegion h (Nat.mod_one _)),
    fun ha => busRead_ok (fun _ => 0) s (accessOk_windowRegion h ha), fun ha => ?_⟩
  rw [← readWord_windowRegion s h]
  exact busRead_ok _ s (accessOk_windowRegion h ha)

end Sys2Proof.Proofs
end

section
/-! PROOFS of the encoding (spec file 30_encoding): the reserved state codes. -/

namespace Sys2Proof.Machine

open Sys2Proof.Safety

/-! ### What a move does to the sequencer state (R26, R106) -/

/-- A Core step keeps the sequencer state or takes it to a successor. -/
theorem CoreMove.seq_cases {s t : State} (h : CoreMove s t) : t.seq = s.seq ∨ t.seq ∈ successors s.seq := by
  cases h with
  | holds => exact .inl rfl
  | checkOk hs | checkBad hs | normShort hs | normExact hs | normLong hs | kwaitOk hs | kwaitBad hs | xipad hs
  | xopad hs | inner hs | iwaitOk hs | iwaitBad hs | outer hs | owaitOk hs | owaitBad hs =>
    exact .inr (by simp [hs, successors])

/-- Only an accepted COMPUTE or CLEAR moves the sequencer in a step of the Host's. -/
theorem HostMove.seq_cases {s t : State} {i : Instr} (h : HostMove s i t) (hc : ∀ x, i ≠ .wr32 0x00010#17 x) :
    t.seq = s.seq
      ∨ (s.busy = false ∧ ∃ rest, i = .compute rest ∧ t.seq = .check)
      ∨ (s.busy = false ∧ ∃ rest, i = .clear rest ∧ t.seq = .idle) := by
  cases h with
  | started _ hi hf =>
    obtain ⟨rest, hr⟩ := hi.resolve_right fun ⟨x, hx⟩ => hc x hx
    exact .inr (.inl ⟨hf, rest, hr, rfl⟩)
  | cleared _ hi hf =>
    obtain ⟨rest, hr⟩ := hi.resolve_right fun ⟨x, hx⟩ => hc x hx
    exact .inr (.inr ⟨hf, rest, hr, rfl⟩)
  | _ => exact .inl rfl

/-- The sequencer state after a step: kept, a successor by a Core step, or written by reset, COMPUTE or CLEAR. -/
theorem step_seq_cases {s t : State} (h : step s = .next t) :
    t.seq = s.seq
      ∨ (s.nextTurn = .core ∧ t.seq ∈ successors s.seq)
      ∨ (s.nextTurn = .reset ∧ t.seq = .idle)
      ∨ (s.busy = false ∧ ∃ rest, hostInstr s.nextTurn = some (.compute rest) ∧ t.seq = .check)
      ∨ (s.busy = false ∧ ∃ rest, hostInstr s.nextTurn = some (.clear rest) ∧ t.seq = .idle) := by
  cases step_move h with
  | host i hi hd _ _ _ hm =>
    obtain ⟨desc, data, rfl⟩ := hd
    rcases hm.seq_cases (decodeBus_ne_wr32_ctrl desc data) with hk | ⟨hb, rest, hr, ht⟩ | ⟨hb, rest, hr, ht⟩
    · exact .inl (by simpa using hk)
    · exact .inr (.inr (.inr (.inl ⟨by simpa using hb, rest, hr ▸ hi, ht⟩)))
    · exact .inr (.inr (.inr (.inr ⟨by simpa using hb, rest, hr ▸ hi, ht⟩)))
  | core hn _ hm => exact hm.seq_cases.imp (by simp) fun hs => .inl ⟨hn, by simpa using hs⟩
  | hashUnit ok => exact .inl (by simp)
  | reset hn => exact .inr (.inr (.inl ⟨hn, rfl⟩))

/-! ### The reserved state codes (R107) -/

/-- No successor of a state is reserved. -/
theorem reserved_of_mem_successors {q r : SeqState} (h : r ∈ successors q) : r.reserved = false := by
  have hall : ∀ r ∈ successors q, r.reserved = false := by cases q <;> decide
  exact hall r h

/-- SEQ.RSVD refuses in every state. -/
theorem exec_seqRsvd (code : BitVec 4) (s : State) :
    exec (.seqRsvd code) s = .refused (.reservedSeqState (SeqState.ofCode code)) := rfl

/-- A reserved state selects SEQ.RSVD with its own code. -/
theorem coreTurn_reserved {s : State} (h : s.seq.reserved = true) :
    coreTurn s = exec (.seqRsvd s.seq.code) s := by
  rw [coreTurn_eq]
  cases hq : s.seq <;> rw [hq] at h
  case reservedC | reservedD | reservedE | reservedF => rfl
  all_goals cases h

/-- A Core turn outside a reserved ERRCODE runs the micro-operation. -/
theorem step_core {s : State} (hn : s.nextTurn = .core) (he : errReserved s.errcode = false) :
    step s = coreTurn s.takeTurn := by
  rw [step, hn]
  exact legalTurn_ok (by simpa using he)

/-- A step from a state that is not reserved leads to one that is not. -/
theorem step_keeps_unreserved {s t : State} (hq : s.seq.reserved = false) (h : step s = .next t) :
    t.seq.reserved = false := by
  rcases step_seq_cases h with ht | ⟨-, hs⟩ | ⟨-, ht⟩ | ⟨-, _, -, ht⟩ | ⟨-, _, -, ht⟩
  · rw [ht, hq]
  · exact reserved_of_mem_successors hs
  all_goals rw [ht]; rfl

/-- A Core turn in a reserved state is refused. -/
theorem step_core_reserved {s : State} (hq : s.seq.reserved = true) (he : errReserved s.errcode = false)
    (hn : s.nextTurn = .core) : step s = .refused (.reservedSeqState s.seq) := by
  rw [step_core hn he, coreTurn_reserved (by simpa using hq), exec_seqRsvd, SeqState.ofCode_code, takeTurn_seq]

end Sys2Proof.Machine

/-! ### The obligations of the encoding -/

namespace Sys2Proof.Proofs

open Sys2Proof.Machine

/-- Settles O38: every change of the sequencer state leads to a successor, IDLE or CHECK, and none is reserved; a
reserved state selects SEQ.RSVD, which refuses. -/
theorem reservedCodesAreRefused : Obligations.ReservedCodesAreRefused := by
  unfold Obligations.ReservedCodesAreRefused
  exact ⟨fun _ _ => step_keeps_unreserved, fun _ => step_core_reserved, exec_seqRsvd⟩

end Sys2Proof.Proofs
end

section
/-! PROOFS of the host interface (spec file 41_host_interface): BUS.ILLEGAL and the guarded writes. -/

namespace Sys2Proof.Machine

/-! ### BUS.ILLEGAL (R144) -/

/-- BUS.ILLEGAL only answers SLVERR. -/
theorem exec_busIllegal (w : Bool) (off : Offset) (data : Word) (s : State) :
    exec (.busIllegal w off data) s = .next (s.slverr w) := by
  cases w <;> rfl

/-- The size code 0b11 alone selects BUS.ILLEGAL, a write or a read by W. -/
theorem decodeBus_illegalSize {desc : Desc} (data : Word) (h : descSz desc = 0b11#2) :
    decodeBus desc data = .busIllegal (descW desc) (descOff desc) data := if_pos h

end Sys2Proof.Machine

/-! ### The obligations of the host interface -/

namespace Sys2Proof.Proofs

open Sys2Proof.Machine

/-- Settles O20: every shape of guarded write goes through the one guard, which sets IGN while BUSY. -/
theorem guardedWriteWhileBusyIsLost : Obligations.GuardedWriteWhileBusyIsLost := by
  unfold Obligations.GuardedWriteWhileBusyIsLost
  exact fun _ _ hg hb => exec_guarded_busy hg hb

/-- Settles O11: the size code selects BUS.ILLEGAL, and BUS.ILLEGAL looks at nothing but W. -/
theorem illegalSizeAnswersSlverr : Obligations.IllegalSizeAnswersSlverr := by
  unfold Obligations.IllegalSizeAnswersSlverr
  exact ⟨exec_busIllegal, fun _ data h => congrArg _ (decodeBus_illegalSize data h)⟩

end Sys2Proof.Proofs
end

section
/-! PROOFS of the invariant: every step keeps it, a running call keeps its key and message, and so a call that reaches
DONE has the tag of its key and message (10_state R46, 43_block_assembler R214). -/

namespace Sys2Proof.Machine

@[simp] theorem State.length_key (s : State) : s.key.length = s.keyLen.toNat := Memory.length_slice _ _

end Sys2Proof.Machine

namespace Sys2Proof.Safety

open Sys2Proof.Machine

/-! ### The invariant in one sequencer state -/

/-- In a known sequencer state the phase is that state's clause. -/
theorem Phase.clause {s : State} {q : SeqState} (h : Phase s) (hq : s.seq = q) : Phase { s with seq := q } := by
  subst hq; exact h

/-- The buffers' part of the invariant looks at the two buffers only. -/
theorem BuffersOk.congr {s t : State} (h : BuffersOk s) (hk : t.keyBuf = s.keyBuf) (hm : t.msgBuf = s.msgBuf) :
    BuffersOk t :=
  ⟨hk ▸ h.keyWf, hk ▸ h.keyWithin, hm ▸ h.msgWf, hm ▸ h.msgWithin⟩

theorem buffersOk_nil {s : State} (hk : s.keyBuf = []) (hm : s.msgBuf = []) : BuffersOk s := by
  constructor <;> simp [hk, hm]

/-- The invariant does not look at IGN, the reply and the turns to come. -/
theorem inv_around {s : State} (h : Inv s) (ign : Bool) (reply : Option Reply) (agenda : List Turn) (tick : Nat) :
    Inv { s with ign := ign, reply := reply, agenda := agenda, tick := tick } :=
  ⟨h.buffers.congr rfl rfl, h.phase⟩

theorem inv_takeTurn {s : State} (h : Inv s) : Inv s.takeTurn := by
  obtain ⟨agenda, tick, he⟩ := takeTurn_fields s
  rw [he]
  exact inv_around h s.ign s.reply agenda tick

theorem inv_resetHkb (s : State) : Inv s.resetHkb :=
  ⟨buffersOk_nil rfl rfl, rfl, ⟨rfl, rfl, rfl, rfl⟩, ⟨rfl, rfl⟩, rfl⟩

/-- Outside a call the port is empty and the buffers between key and tag hold nothing (R46). -/
theorem Phase.free {s : State} (h : Phase s) (hb : s.busy = false) : s.hport = .empty ∧ HoldsNothing s := by
  cases hq : s.seq <;> simp only [State.busy, hq, SeqState.busy, Bool.true_eq_false] at hb
  case idle | done | error =>
    obtain ⟨hport, hnone, -⟩ := h.clause hq
    exact ⟨hport, hnone⟩
  all_goals exact (h.clause hq).elim

/-- Outside a call the phase says nothing of the key, the message and their lengths. -/
theorem Phase.inputs {s : State} (h : Phase s) (hb : s.busy = false) (keyBuf msgBuf : Memory) (keyLen msgLen : Word)
    (reply : Option Reply) :
    Phase { s with keyBuf := keyBuf, msgBuf := msgBuf, keyLen := keyLen, msgLen := msgLen, reply := reply } := by
  cases hq : s.seq <;> simp only [State.busy, hq, SeqState.busy, Bool.true_eq_false] at hb
  case idle | done | error => exact h.clause hq
  all_goals exact (h.clause hq).elim

/-! ### The hash port and the count of requests (R30, R82, R87) -/

theorem Outstanding.answered {p q : Purpose} {data x : List Byte} (h : Outstanding p data (.req q x)) (ok : Bool) :
    Outstanding p data (.rsp q (if ok then .ok (Config.H x) else .failR)) := by
  rcases h with h | h | h <;> cases h
  cases ok
  · exact .inr (.inr rfl)
  · exact .inr (.inl rfl)

/-- An Ok answer is the digest of what was requested. -/
theorem Outstanding.digest {p : Purpose} {data : List Byte} {d : Vector Byte Config.L} {h : HPort}
    (ho : Outstanding p data h) (hp : h = .rsp p (.ok d)) : d = Config.H data := by
  subst hp
  rcases ho with ho | ho | ho <;> cases ho
  rfl

theorem counted_nil {s : State} (h : s.hcnt = 0) : Counted s [] := ⟨congrArg BitVec.toNat h, s.issues, by simp⟩

/-- HashIssue adds its request to the counted ones. -/
theorem Counted.issue {s t : State} {reqs : List Issue} {r : Issue} (h : Counted s reqs) (hc : s.hcnt ≠ 3)
    (ht : t.hcnt = s.hcnt + 1) (hi : t.issues = s.issues ++ [r]) : Counted t (reqs ++ [r]) := by
  obtain ⟨hlen, before, hbefore⟩ := h
  have hinc : ∀ c : BitVec 2, c ≠ 3 → (c + 1).toNat = c.toNat + 1 := by decide
  refine ⟨?_, before, by rw [hi, hbefore, List.append_assoc]⟩
  rw [ht, hinc _ hc, hlen, List.length_append, List.length_singleton]

theorem Counted.hcnt_eq {s : State} {reqs : List Issue} {c : BitVec 2} (h : Counted s reqs)
    (hc : reqs.length = c.toNat) : s.hcnt = c := BitVec.eq_of_toNat_eq (h.1.trans hc)

theorem Counted.hcnt_ne_zero {s : State} {reqs : List Issue} (h : Counted s reqs) (hne : reqs ≠ []) : s.hcnt ≠ 0 :=
  fun hz => hne (List.eq_nil_of_length_eq_zero (h.1.symm.trans (congrArg BitVec.toNat hz)))

theorem keyRequests_of_long {key : List Byte} (h : Config.B < key.length) : keyRequests key = [⟨.key, key⟩] :=
  if_pos h

theorem keyRequests_of_le {key : List Byte} (h : key.length ≤ Config.B) : keyRequests key = [] :=
  if_neg (not_lt.mpr h)

theorem length_keyRequests (key : List Byte) : (keyRequests key).length = if 64 < key.length then 1 else 0 := by
  unfold keyRequests; split <;> rfl

/-- HCNT at XIPAD: one request for an oversized key (R180). -/
theorem Counted.hcnt_keyRequests {s : State} {key : List Byte} (h : Counted s (keyRequests key)) :
    s.hcnt = if 64 < key.length then 1#2 else 0#2 :=
  h.hcnt_eq (by rw [length_keyRequests]; split <;> rfl)

/-- HCNT at the end of a call (R216). -/
theorem Counted.hcnt_allRequests {s : State} {key msg : List Byte} (h : Counted s (allRequests key msg)) :
    s.hcnt = if 64 < key.length then 3#2 else 2#2 :=
  h.hcnt_eq (by simp only [allRequests, innerRequests, List.length_append, length_keyRequests]; split <;> rfl)

/-! ### The KeyNormalizer's function -/

theorem normalizeKey_of_long {key : List Byte} (h : Config.B < key.length) :
    normalizeKey key = padRight Config.B (Config.H key).toList := if_pos h

theorem normalizeKey_of_le {key : List Byte} (h : key.length ≤ Config.B) : normalizeKey key = padRight Config.B key :=
  if_neg (not_lt.mpr h)

/-! ### What XIPAD finds (R180) -/

/-- In XIPAD `k0` is the normalized key, and HCNT counts the key's request. -/
theorem Inv.xipad {s : State} (h : Inv s) (hs : s.seq = .xipad) :
    s.k0 = normalizeKey s.key ∧ s.hcnt = if 64 < s.keyLen.toNat then 1#2 else 0#2 := by
  obtain ⟨-, ⟨hk0, -, -, -⟩, -, -, hcnt⟩ := h.phase.clause hs
  exact ⟨hk0, s.length_key ▸ hcnt.hcnt_keyRequests⟩

end Sys2Proof.Safety

namespace Sys2Proof.Machine

open Sys2Proof.Safety

/-! ### A Core step keeps the invariant -/

/-- A Core step keeps the two buffers, or scrubs them. -/
theorem CoreMove.buffersOk {s t : State} (h : CoreMove s t) (hb : BuffersOk s) : BuffersOk t := by
  cases h with
  | checkBad | kwaitBad | iwaitBad | owaitOk | owaitBad => exact buffersOk_nil rfl rfl
  | _ => exact hb.congr rfl rfl

/-- The phase after HASH_FAIL: what was scrubbed is zero, and a request was counted. -/
theorem phase_fail_hashFail {s : State} {reqs : List Issue} (hrun : Running s) (hcnt : Counted s reqs)
    (hne : reqs ≠ []) : Phase (State.fail errHashFail { s with hport := .empty }) :=
  ⟨rfl, ⟨rfl, rfl, rfl, rfl⟩, hrun.2, .inr ⟨rfl, hcnt.hcnt_ne_zero hne⟩⟩

/-- NORM hands XIPAD the normalized key, for a key of at most one block. -/
theorem phase_norm_xipad {s : State} (h : Phase s) (hs : s.seq = .norm) (hk : s.keyLen.toNat ≤ Config.B) :
    Phase { s with k0 := padRight Config.B s.key, seq := .xipad } := by
  obtain ⟨hport, ⟨-, hipad, hopad, hinner⟩, hrun, hcnt, hfits⟩ := h.clause hs
  have hle : s.key.length ≤ Config.B := by simpa using hk
  refine ⟨hport, ⟨(normalizeKey_of_le hle).symm, hipad, hopad, hinner⟩, hrun, hfits, ?_⟩
  change Counted _ (keyRequests s.key)
  rw [keyRequests_of_le hle]
  exact counted_nil hcnt

/-- Each move of the Core leads from the clause of its state to the clause of the next. -/
theorem CoreMove.phase {s t : State} (hm : CoreMove s t) (h : Phase s) : Phase t := by
  cases hm with
  | holds => exact h
  | checkOk hs hk hm =>
    obtain ⟨hport, hnone, hrun, hcnt⟩ := h.clause hs
    exact ⟨hport, hnone, hrun, hcnt, hk, hm⟩
  | checkBad hs =>
    obtain ⟨hport, -, hrun, hcnt⟩ := h.clause hs
    exact ⟨hport, ⟨rfl, rfl, rfl, rfl⟩, hrun.2, .inl ⟨rfl, hcnt⟩⟩
  | normShort hs hk => exact phase_norm_xipad h hs hk.le
  | normExact hs hk =>
    have hkey : s.keyBuf.slice Config.B = s.key := by rw [State.key, hk]
    rw [hkey]
    exact phase_norm_xipad h hs hk.le
  | normLong hs hk _ _ hc =>
    obtain ⟨-, hnone, hrun, hcnt, hfits⟩ := h.clause hs
    have hlong : Config.B < s.key.length := by simpa using hk
    refine ⟨.inl rfl, hnone, hrun, hfits, hlong, ?_⟩
    change Counted _ (keyRequests s.key)
    rw [keyRequests_of_long hlong]
    exact (counted_nil hcnt).issue hc rfl rfl
  | kwaitOk hs d hp =>
    obtain ⟨hout, ⟨-, hipad, hopad, hinner⟩, hrun, hfits, hlong, hcnt⟩ := h.clause hs
    obtain rfl := hout.digest hp
    exact ⟨rfl, ⟨(normalizeKey_of_long hlong).symm, hipad, hopad, hinner⟩, hrun, hfits, hcnt⟩
  | kwaitBad hs =>
    obtain ⟨-, -, hrun, -, hlong, hcnt⟩ := h.clause hs
    exact phase_fail_hashFail hrun hcnt (by rw [keyRequests_of_long hlong]; exact List.cons_ne_nil _ _)
  | xipad hs =>
    obtain ⟨hport, ⟨hk0, -, hopad, hinner⟩, hrest⟩ := h.clause hs
    exact ⟨hport, ⟨hk0, congrArg (xorAll Config.IPAD) hk0, hopad, hinner⟩, hrest⟩
  | xopad hs =>
    obtain ⟨hport, ⟨hk0, hipad, -, hinner⟩, hrest⟩ := h.clause hs
    exact ⟨hport, ⟨hk0, hipad, congrArg (xorAll Config.OPAD) hk0, hinner⟩, hrest⟩
  | inner hs _ _ hc =>
    obtain ⟨-, ⟨hk0, hipad, hrest⟩, hrun, hfits, hcnt⟩ := h.clause hs
    have hblock : s.k0Ipad.toList ++ s.msg = innerBlock s.key s.msg := congrArg (·.toList ++ s.msg) hipad
    rw [hblock]
    exact ⟨.inl rfl, ⟨hk0, hipad, hrest⟩, hrun, hfits, hcnt.issue hc rfl rfl⟩
  | iwaitOk hs d hp =>
    obtain ⟨hout, ⟨hk0, hipad, hopad, -⟩, hrest⟩ := h.clause hs
    exact ⟨rfl, ⟨hk0, hipad, hopad, hout.digest hp⟩, hrest⟩
  | iwaitBad hs =>
    obtain ⟨-, -, hrun, -, hcnt⟩ := h.clause hs
    exact phase_fail_hashFail hrun hcnt (List.concat_ne_nil _ _)
  | outer hs _ hc =>
    obtain ⟨-, ⟨hk0, hipad, hopad, hinner⟩, hrun, hfits, hcnt⟩ := h.clause hs
    have hblock : s.k0Opad.toList ++ s.innerDigest.toList = outerBlock s.key s.msg :=
      congrArg₂ (·.toList ++ ·.toList) hopad hinner
    rw [hblock]
    exact ⟨.inl rfl, ⟨hk0, hipad, hopad, hinner⟩, hrun, hfits, hcnt.issue hc rfl rfl⟩
  | owaitOk hs =>
    obtain ⟨-, -, hrun, -, hcnt⟩ := h.clause hs
    refine ⟨rfl, ⟨rfl, rfl, rfl, rfl⟩, hrun.1, ?_⟩
    have hend : s.hcnt = _ := hcnt.hcnt_allRequests
    split at hend
    · exact .inr hend
    · exact .inl hend
  | owaitBad hs =>
    obtain ⟨-, -, hrun, -, hcnt⟩ := h.clause hs
    exact phase_fail_hashFail hrun hcnt (List.concat_ne_nil _ _)

/-! ### The other turns keep the invariant -/

/-- A request stands in the port in a wait state only, and each answer R82 admits is one the state waits for. -/
theorem phase_hashAnswer {s : State} (h : Phase s) (ok : Bool) : Phase (s.hashAnswer ok) := by
  by_cases hp : ∃ p data, s.hport = .req p data
  · obtain ⟨p, data, hp⟩ := hp
    rw [State.hashAnswer_req ok hp]
    cases hq : s.seq
    case kwait | iwait | owait =>
      obtain ⟨hout, hrest⟩ := h.clause hq
      rw [hp] at hout
      exact ⟨hout.answered ok, hrest⟩
    case reservedC | reservedD | reservedE | reservedF => exact (h.clause hq).elim
    all_goals
      obtain ⟨hempty, -⟩ := h.clause hq
      cases hp.symm.trans hempty
  · rw [State.hashAnswer_idle ok fun p data hreq => hp ⟨p, data, hreq⟩]
    exact h

/-- The Host writes the key and the message outside a call only, and there COMPUTE and CLEAR find nothing held. -/
theorem HostMove.inv {s t : State} {i : Instr} (hm : HostMove s i t) (h : Inv s) : Inv t := by
  obtain ⟨hbuf, hphase⟩ := h
  cases hm with
  | replies | lost | reserved => exact ⟨hbuf.congr rfl rfl, hphase⟩
  | keyBytes _ _ _ _ _ _ _ hf =>
    exact ⟨⟨Memory.wf_writeBytes hbuf.keyWf _ _, Memory.within_writeBytes hbuf.keyWithin _ _, hbuf.msgWf,
      hbuf.msgWithin⟩, hphase.inputs hf _ _ _ _ _⟩
  | msgBytes _ _ _ _ _ _ _ hf =>
    exact ⟨⟨hbuf.keyWf, hbuf.keyWithin, Memory.wf_writeBytes hbuf.msgWf _ _,
      Memory.within_writeBytes hbuf.msgWithin _ _⟩, hphase.inputs hf _ _ _ _ _⟩
  | keyLength _ _ _ hf | msgLength _ _ _ hf => exact ⟨hbuf.congr rfl rfl, hphase.inputs hf _ _ _ _ _⟩
  | started _ _ hf =>
    obtain ⟨hport, hnone⟩ := hphase.free hf
    exact ⟨hbuf.congr rfl rfl, hport, hnone, ⟨rfl, rfl⟩, rfl⟩
  | cleared _ _ hf =>
    exact ⟨buffersOk_nil rfl rfl, (hphase.free hf).1, ⟨rfl, rfl, rfl, rfl⟩, ⟨rfl, rfl⟩, rfl⟩

/-- Every step of every agent keeps the invariant. -/
theorem step_keeps_inv {s t : State} (h : Inv s) (hs : step s = .next t) : Inv t := by
  have htaken := inv_takeTurn h
  cases step_move hs with
  | host i _ _ _ _ _ hm => exact hm.inv htaken
  | core _ _ hm => exact ⟨hm.buffersOk htaken.buffers, hm.phase htaken.phase⟩
  | hashUnit ok => exact ⟨htaken.buffers.congr (by simp) (by simp), phase_hashAnswer htaken.phase ok⟩
  | reset => exact inv_resetHkb _

/-! ### A running call -/

/-- A Core step that leaves the call running touches none of its inputs. -/
theorem CoreMove.inputs_eq {s t : State} (h : CoreMove s t) (ht : t.busy = true) :
    t.keyBuf = s.keyBuf ∧ t.msgBuf = s.msgBuf ∧ t.keyLen = s.keyLen ∧ t.msgLen = s.msgLen := by
  cases h with
  | checkBad | kwaitBad | iwaitBad | owaitOk | owaitBad => cases ht
  | _ => exact ⟨rfl, rfl, rfl, rfl⟩

/-- While BUSY the Host's instructions touch none of the call's inputs (R76, R158). -/
theorem HostMove.inputs_eq {s t : State} {i : Instr} (h : HostMove s i t) (hb : s.busy = true) :
    t.keyBuf = s.keyBuf ∧ t.msgBuf = s.msgBuf ∧ t.keyLen = s.keyLen ∧ t.msgLen = s.msgLen := by
  cases h with
  | replies | lost | reserved => exact ⟨rfl, rfl, rfl, rfl⟩
  | keyBytes _ _ _ _ _ _ _ hf | msgBytes _ _ _ _ _ _ _ hf | keyLength _ _ _ hf | msgLength _ _ _ hf
  | started _ _ hf | cleared _ _ hf => cases hb.symm.trans hf

/-- A step of a call that goes on keeps the key, the message and their lengths (R76). -/
theorem step_busy_inputs_eq {s t : State} (hb : s.busy = true) (h : step s = .next t) (ht : t.busy = true) :
    t.keyBuf = s.keyBuf ∧ t.msgBuf = s.msgBuf ∧ t.keyLen = s.keyLen ∧ t.msgLen = s.msgLen := by
  cases step_move h with
  | host i _ _ _ _ _ hm => simpa using hm.inputs_eq (by simpa using hb)
  | core _ _ hm => simpa using hm.inputs_eq ht
  | hashUnit ok => simp
  | reset => cases ht

/-- A call enters DONE by OWAIT's Ok answer only, and its digest is the tag (R42, R210). -/
theorem step_enters_done {s t : State} (h : step s = .next t) (hs : s.seq ≠ .done) (ht : t.seq = .done) :
    s.seq = .owait ∧ s.hport = .rsp .outer (.ok t.tag) ∧ t.hcnt = s.hcnt ∧ t.issues = s.issues := by
  cases step_move h with
  | host i _ hd _ _ _ hm =>
    obtain ⟨desc, data, rfl⟩ := hd
    rcases hm.seq_cases (decodeBus_ne_wr32_ctrl desc data) with hk | ⟨-, _, -, hc⟩ | ⟨-, _, -, hc⟩
    · exact absurd (by rw [← ht, hk, takeTurn_seq]) hs
    · cases hc.symm.trans ht
    · cases hc.symm.trans ht
  | core _ _ hm =>
    cases hm with
    | owaitOk hq d hp => simpa using And.intro hq hp
    | holds => exact absurd (by simpa using ht) hs
    | _ => cases ht
  | hashUnit ok => exact absurd (by simpa using ht) hs
  | reset => cases ht

/-- A run that completes takes a first step, and completes from there one step sooner. -/
theorem completes_succ {s t : State} {n : Nat} (h : Completes s (n + 1) t) :
    ∃ u, step s = .next u ∧ Completes u n t := by
  obtain ⟨hrun, hbusy, hdone⟩ := h
  obtain ⟨u, hstep, hrest⟩ := run_succ_next hrun
  exact ⟨u, hstep, hrest, fun m v hm hv => hbusy (m + 1) v (by omega) (by rw [run_succ hstep]; exact hv), hdone⟩

/-- The last step of a call that reaches DONE: it is taken under the invariant, from a BUSY state with the call's own
key and message. -/
theorem completes_last_step {s t : State} {n : Nat} (hI : Inv s) (hb : s.busy = true) (h : Completes s n t) :
    ∃ u, Inv u ∧ u.busy = true ∧ u.key = s.key ∧ u.msg = s.msg ∧ step u = .next t := by
  induction n generalizing s with
  | zero =>
    obtain ⟨hrun, -, hdone⟩ := h
    cases hrun
    rw [State.busy, hdone] at hb
    cases hb
  | succ n ih =>
    obtain ⟨u, hstep, hrest⟩ := completes_succ h
    cases n with
    | zero =>
      obtain ⟨hrun, -, -⟩ := hrest
      cases hrun
      exact ⟨s, hI, hb, rfl, rfl, hstep⟩
    | succ n =>
      have hu : u.busy = true := hrest.2.1 0 u n.succ_pos rfl
      obtain ⟨hkb, hmb, hkl, hml⟩ := step_busy_inputs_eq hb hstep hu
      obtain ⟨v, hv, hvb, hvk, hvm, hlast⟩ := ih (step_keeps_inv hI hstep) hu hrest
      exact ⟨v, hv, hvb, by rw [hvk, State.key, hkb, hkl]; rfl, by rw [hvm, State.msg, hmb, hml]; rfl, hlast⟩

/-- However its turns interleave, a call that reaches DONE has the tag of its key and message (R214). -/
theorem completes_tag {s t : State} {n : Nat} (hI : Inv s) (hb : s.busy = true) (h : Completes s n t) :
    t.tag = hmac s.key s.msg := by
  obtain ⟨u, hu, hub, hkey, hmsg, hlast⟩ := completes_last_step hI hb h
  have hne : u.seq ≠ .done := fun hq => by rw [State.busy, hq] at hub; cases hub
  obtain ⟨hq, hp, -, -⟩ := step_enters_done hlast hne h.2.2
  obtain ⟨hout, -⟩ := hu.phase.clause hq
  rw [← hkey, ← hmsg]
  exact hout.digest hp

/-- Two calls with the same message whose keys normalize to the same `k0` have the same tag. -/
theorem completes_tag_congr {a b t u : State} {n m : Nat} (ha : Inv a) (hb : Inv b) (hqa : a.seq = .check)
    (hqb : b.seq = .check) (hkey : normalizeKey a.key = normalizeKey b.key) (hmsg : a.msg = b.msg)
    (hat : Completes a n t) (hbu : Completes b m u) : t.tag = u.tag := by
  rw [completes_tag ha (by rw [State.busy, hqa]; rfl) hat, completes_tag hb (by rw [State.busy, hqb]; rfl) hbu]
  simp only [hmac, outerBlock, innerHash, innerBlock, hkey, hmsg]

end Sys2Proof.Machine
end

section
/-! PROOFS of the KeyNormalizer (spec file 42_key_normalizer): keys that normalize to the same `k0`. -/

namespace Sys2Proof.Machine

open Sys2Proof.Safety

/-! ### The micro-operations by the KeyNormalizer's function -/

theorem exec_normShort {s : State} (hs : s.seq = .norm) (hk : s.keyLen.toNat < Config.B) :
    exec .normShort s = .next { s with k0 := normalizeKey s.key, seq := .xipad } := by
  rw [normalizeKey_of_le (by simpa using hk.le)]
  exact if_pos ⟨hs, hk⟩

theorem exec_normExact {s : State} (hs : s.seq = .norm) (hk : s.keyLen.toNat = Config.B) :
    exec .normExact s = .next { s with k0 := normalizeKey s.key, seq := .xipad } := by
  rw [normalizeKey_of_le (by simpa using hk.le), State.key, hk]
  exact if_pos ⟨hs, hk⟩

/-- Under the invariant the digest that KWAIT consumes is the key's own. -/
theorem exec_kwait_ok {s : State} {d : Vector Byte Config.L} (hI : Inv s) (hs : s.seq = .kwait)
    (hp : s.hport = .rsp .key (.ok d)) :
    exec .kwait s = .next { s with hport := .empty, k0 := normalizeKey s.key, seq := .xipad } := by
  obtain ⟨hout, -, -, -, hlong, -⟩ := hI.phase.clause hs
  have hk0 : normalizeKey s.key = padRight Config.B d.toList := by
    rw [hout.digest hp]; exact normalizeKey_of_long hlong
  rw [hk0]
  simp only [exec, execKwait, State.consume_ok _ hs hp]

/-! ### Keys with the same `k0` (R173, R182) -/

/-- Zero bytes on the right change nothing in what is padded with zero bytes on the right. -/
theorem padRight_append_zeros (n k : Nat) (s : List Byte) : padRight n (s ++ List.replicate k 0#8) = padRight n s := by
  refine Vector.ext fun i hi => ?_
  rw [padRight_getElem, padRight_getElem]
  rcases lt_or_ge i s.length with h | h
  · exact List.getD_append _ _ _ _ h
  · rw [List.getD_append_right _ _ _ _ h, List.getD_eq_default _ _ h, List.getD_eq_getElem?_getD]
    exact List.getElem?_getD_replicate_default_eq _ _ _

theorem padRight_nil (n : Nat) : padRight n [] = zeros n := by
  refine Vector.ext fun i hi => ?_
  simp [zeros]

theorem normalizeKey_nil : normalizeKey [] = zeros Config.B := padRight_nil Config.B

theorem normalizeKey_zeros : normalizeKey (List.replicate 64 0#8) = zeros Config.B := by
  rw [normalizeKey_of_le (by simp), ← padRight_nil]
  exact padRight_append_zeros 64 64 []

/-- An oversized key normalizes as its digest with zero bytes up to one block does. -/
theorem normalizeKey_digest {key : List Byte} (h : Config.B < key.length) :
    normalizeKey ((Config.H key).toList ++ List.replicate 32 0#8) = normalizeKey key := by
  rw [normalizeKey_of_long h, normalizeKey_of_le (by simp), padRight_append_zeros]

theorem key_eq_nil {s : State} (h : s.keyLen = 0#32) : s.key = [] :=
  List.eq_nil_of_length_eq_zero (by rw [State.length_key, h]; rfl)

theorem key_eq_zeros {s : State} (h : s.keyLen = 64#32) (hz : ∀ i, i < 64 → s.keyBuf.read i = 0#8) :
    s.key = List.replicate 64 0#8 := by
  have hlen : s.key.length = 64 := by rw [State.length_key, h]; rfl
  refine List.eq_replicate_iff.mpr ⟨hlen, fun b hb => ?_⟩
  obtain ⟨i, hi, rfl⟩ := List.mem_iff_getElem.mp hb
  exact (Memory.getElem_slice _ _ _ _).trans (hz i (hlen ▸ hi))

end Sys2Proof.Machine

/-! ### The obligations of the KeyNormalizer -/

namespace Sys2Proof.Proofs

open Sys2Proof.Machine Sys2Proof.Safety

/-- Settles O26: the empty key and the key of 64 zero bytes both normalize to the zero block. -/
theorem emptyKeyIsAZeroBlock : Obligations.EmptyKeyIsAZeroBlock := by
  unfold Obligations.EmptyKeyIsAZeroBlock
  refine ⟨fun s hs hk => ?_, fun s hs hk hz => ?_, fun a b t u n m ha hb hqa hqb hka hkb hz hmsg hat hbu => ?_⟩
  · refine ⟨_, exec_normShort hs (by rw [hk]; decide), ?_, rfl⟩
    exact (congrArg normalizeKey (key_eq_nil hk)).trans normalizeKey_nil
  · refine ⟨_, exec_normExact hs (by rw [hk]; rfl), ?_, rfl⟩
    exact (congrArg normalizeKey (key_eq_zeros hk hz)).trans normalizeKey_zeros
  · have hkey : normalizeKey a.key = normalizeKey b.key := by
      rw [key_eq_nil hka, key_eq_zeros hkb hz, normalizeKey_nil, normalizeKey_zeros]
    exact completes_tag_congr ha hb hqa hqb hkey hmsg hat hbu

/-- Settles O30: KWAIT and NORM.EXACT both leave the normalized key, and the two keys normalize alike. -/
theorem oversizedKeyEquivalence : Obligations.OversizedKeyEquivalence := by
  unfold Obligations.OversizedKeyEquivalence
  intro s u d hI hs hp hu hlen hkey
  obtain ⟨-, -, -, -, hlong, -⟩ := hI.phase.clause hs
  have hsame : normalizeKey s.key = normalizeKey u.key := by rw [hkey]; exact (normalizeKey_digest hlong).symm
  refine ⟨⟨_, _, exec_kwait_ok hI hs hp, exec_normExact hu (by rw [hlen]; rfl), hsame, rfl, rfl⟩, ?_⟩
  intro a b t v n m ha hb hqa hqb hka hkb hmsg hat hbv
  exact completes_tag_congr ha hb hqa hqb (by rw [hka, hkb, hsame]) hmsg hat hbv

/-- Settles O31: the step keeps the invariant, and the invariant in XIPAD is the contract. -/
theorem keyNormalizerContract : Obligations.KeyNormalizerContract := by
  unfold Obligations.KeyNormalizerContract
  intro s t hI hstep _ ht
  exact ⟨t.k0.length_toList, (step_keeps_inv hI hstep).xipad ht⟩

end Sys2Proof.Proofs
end

section
/-! PROOFS of the exceptions (spec file 60_exceptions): which steps enter ERROR, and what HCNT records there. -/

namespace Sys2Proof.Safety

open Sys2Proof.Machine

/-! ### The causes of a call error (R240) -/

/-- CHECK finds a length too large (R170). -/
def SizeFails (s : State) : Prop :=
  s.seq = .check ∧ (Config.KEY_MAX < s.keyLen.toNat ∨ Config.MSG_MAX < s.msgLen.toNat)

/-- A wait state finds FailR to its own request (R83, R248). -/
def HashFails (s : State) : Prop :=
  (s.seq = .kwait ∧ s.hport = .rsp .key .failR) ∨ (s.seq = .iwait ∧ s.hport = .rsp .inner .failR)
    ∨ (s.seq = .owait ∧ s.hport = .rsp .outer .failR)

/-! ### HCNT and the tag where a call error strikes (R216, R240) -/

/-- HCNT once INNER has issued: the key's request, if there is one, and the inner one. -/
theorem Counted.hcnt_innerRequests {s : State} {key msg : List Byte} (h : Counted s (innerRequests key msg)) :
    s.hcnt = if 64 < key.length then 2#2 else 1#2 :=
  h.hcnt_eq (by simp only [innerRequests, List.length_append, length_keyRequests]; split <;> rfl)

/-- CHECK comes before every request. -/
theorem Inv.hcnt_check {s : State} (h : Inv s) (hs : s.seq = .check) : s.hcnt = 0#2 := by
  obtain ⟨-, -, -, hcnt⟩ := h.phase.clause hs
  exact hcnt

/-- Only an oversized key is waited for, and its request is the first. -/
theorem Inv.hcnt_kwait {s : State} (h : Inv s) (hs : s.seq = .kwait) : s.hcnt = 1#2 := by
  obtain ⟨-, -, -, -, hlong, hcnt⟩ := h.phase.clause hs
  exact hcnt.hcnt_keyRequests.trans (if_pos hlong)

theorem Inv.hcnt_iwait {s : State} (h : Inv s) (hs : s.seq = .iwait) :
    s.hcnt = if 64 < s.keyLen.toNat then 2#2 else 1#2 := by
  obtain ⟨-, -, -, -, hcnt⟩ := h.phase.clause hs
  exact s.length_key ▸ hcnt.hcnt_innerRequests

theorem Inv.hcnt_owait {s : State} (h : Inv s) (hs : s.seq = .owait) :
    s.hcnt = if 64 < s.keyLen.toNat then 3#2 else 2#2 := by
  obtain ⟨-, -, -, -, hcnt⟩ := h.phase.clause hs
  exact s.length_key ▸ hcnt.hcnt_allRequests

/-- In ERROR the tag is zero: no call error writes one. -/
theorem Inv.tag_error {s : State} (h : Inv s) (hs : s.seq = .error) : s.tag = zeros Config.L := by
  obtain ⟨-, -, htag, -⟩ := h.phase.clause hs
  exact htag

end Sys2Proof.Safety

namespace Sys2Proof.Machine

open Sys2Proof.Safety

/-! ### The steps into ERROR (R212, R240) -/

theorem State.wiped_fail (code : BitVec 4) (s : State) : Wiped (s.fail code) :=
  ⟨fun _ => rfl, fun _ => rfl, rfl, rfl, rfl, rfl, rfl, rfl⟩

/-- The Core enters ERROR by Fail only, with the code of its cause; Fail scrubs and keeps HCNT. -/
theorem CoreMove.enters_error {s t : State} (h : CoreMove s t) (hs : s.seq ≠ .error) (ht : t.seq = .error) :
    Wiped t ∧ t.hcnt = s.hcnt
      ∧ ((SizeFails s ∧ t.errcode = errInvalidSize) ∨ (HashFails s ∧ t.errcode = errHashFail)) := by
  cases h with
  | holds => exact absurd ht hs
  | checkBad hq hb => exact ⟨s.wiped_fail _, rfl, .inl ⟨⟨hq, hb⟩, rfl⟩⟩
  | kwaitBad hq hp => exact ⟨State.wiped_fail _ _, rfl, .inr ⟨.inl ⟨hq, hp⟩, rfl⟩⟩
  | iwaitBad hq hp => exact ⟨State.wiped_fail _ _, rfl, .inr ⟨.inr (.inl ⟨hq, hp⟩), rfl⟩⟩
  | owaitBad hq hp => exact ⟨State.wiped_fail _ _, rfl, .inr ⟨.inr (.inr ⟨hq, hp⟩), rfl⟩⟩
  | _ => cases ht

/-- A step enters ERROR in the Core's turn only: the Host, the HashUnit and reset do not lead there. -/
theorem step_enters_error {s t : State} (h : step s = .next t) (hs : s.seq ≠ .error) (ht : t.seq = .error) :
    Wiped t ∧ t.hcnt = s.hcnt
      ∧ ((SizeFails s ∧ t.errcode = errInvalidSize) ∨ (HashFails s ∧ t.errcode = errHashFail)) := by
  cases step_move h with
  | host i _ hd _ _ _ hm =>
    obtain ⟨desc, data, rfl⟩ := hd
    rcases hm.seq_cases (decodeBus_ne_wr32_ctrl desc data) with hk | ⟨-, _, -, hc⟩ | ⟨-, _, -, hc⟩
    · exact absurd (by rw [← ht, hk, takeTurn_seq]) hs
    · cases hc.symm.trans ht
    · cases hc.symm.trans ht
  | core _ _ hm => simpa [SizeFails, HashFails] using hm.enters_error (by simpa using hs) ht
  | hashUnit ok => exact absurd (by simpa using ht) hs
  | reset => cases ht

end Sys2Proof.Machine

/-! ### The obligation of the exceptions -/

namespace Sys2Proof.Proofs

open Sys2Proof.Machine Sys2Proof.Safety

/-- Settles O57: ERROR is entered by the Core's Fail, which keeps HCNT, and the invariant counts the requests issued up
to the state that fails. -/
theorem callErrorsRecordTheirCause : Obligations.CallErrorsRecordTheirCause := by
  unfold Obligations.CallErrorsRecordTheirCause
  intro s t hI hs hstep ht
  obtain ⟨hwiped, hcnt, hcause⟩ := step_enters_error hstep hs ht
  refine ⟨(step_keeps_inv hI hstep).tag_error ht, hwiped, ?_⟩
  rcases hcause with ⟨⟨hq, hsize⟩, hcode⟩ | ⟨⟨hq, hp⟩ | ⟨hq, hp⟩ | ⟨hq, hp⟩, hcode⟩
  · exact .inl ⟨hq, hcode, hcnt.trans (hI.hcnt_check hq), hsize⟩
  · exact .inr (.inl ⟨hq, hp, hcode, hcnt.trans (hI.hcnt_kwait hq)⟩)
  · exact .inr (.inr (.inl ⟨hq, hp, hcode, hcnt.trans (hI.hcnt_iwait hq)⟩))
  · exact .inr (.inr (.inr ⟨hq, hp, hcode, hcnt.trans (hI.hcnt_owait hq)⟩))

end Sys2Proof.Proofs
end

section
/-! PROOFS of the encoding (spec file 30_encoding), the other direction and back: an instruction's words read as that
instruction, and a word's instruction is written as that word. -/

namespace Sys2Proof

open Machine Safety

/-! ### Descriptors and CTRL words by their fields (R101-R104) -/

/-- A descriptor's fields select the instruction. -/
theorem decodeBus_mkDesc (w : Bool) (sz : BitVec 2) (off : Offset) (data : Word) :
    decodeBus (mkDesc w sz off) data =
      if sz = 0b11#2 then .busIllegal w off data
      else if w then
        if sz = 0b00#2 then .wr8 off data else if sz = 0b01#2 then .wr16 off data else decodeWr32 off data
      else if sz = 0b00#2 then .rd8 off else if sz = 0b01#2 then .rd16 off else .rd32 off := by
  simp only [decodeBus, descSz_mkDesc, descW_mkDesc, descOff_mkDesc]

/-- Off CTRL, KEY_LEN and MSG_LEN a word write is read as WR32. -/
theorem decodeWr32_of_wellFormed {off : Offset} {data : Word} (h : (Instr.wr32 off data).wellFormed = true) :
    decodeWr32 off data = .wr32 off data := by
  simp only [Instr.wellFormed, Bool.and_eq_true, decide_eq_true_eq] at h
  obtain ⟨⟨hctrl, hkey⟩, hmsg⟩ := h
  rw [decodeWr32, if_neg hctrl, if_neg hkey, if_neg hmsg]

/-- A CTRL word's low four bits select the command. -/
theorem decodeCmd_mkCmd (cmd : BitVec 4) (rest : BitVec 28) :
    decodeCmd (mkCmd cmd rest) =
      if cmd = 0x0#4 then .nop rest else if cmd = 0x1#4 then .compute rest else if cmd = 0x2#4 then .clear rest
      else .rsvd cmd rest := by
  simp only [decodeCmd, cmdCode_mkCmd, cmdRest_mkCmd]

/-- A command of 0x3 to 0xF is none of NOP, COMPUTE and CLEAR. -/
theorem reservedCmd_iff (cmd : BitVec 4) : 3 ≤ cmd.toNat ↔ cmd ≠ 0x0#4 ∧ cmd ≠ 0x1#4 ∧ cmd ≠ 0x2#4 := by
  revert cmd; decide

/-- A state code of 0xC to 0xF selects SEQ.RSVD (R107). -/
theorem decodeSeq_reserved {code : BitVec 4} (h : 0xC ≤ code.toNat) :
    decodeSeq ⟨code, 0, none⟩ = .instr (.seqRsvd code) := by
  revert code; decide

/-! ### The words of a decoded instruction (R101-R104) -/

/-- The command in a CTRL word is written as that word. -/
theorem encode_decodeCmd (word : Word) : encode (decodeCmd word) = .cmd word := by
  have hback : ∀ {cmd}, cmdCode word = cmd → Fetched.cmd (mkCmd cmd (cmdRest word)) = .cmd word := by
    rintro _ rfl
    rw [mkCmd_fields]
  unfold decodeCmd
  split_ifs with hnop hcompute hclear
  · exact hback hnop
  · exact hback hcompute
  · exact hback hclear
  · exact hback rfl

theorem wellFormed_decodeCmd (word : Word) : (decodeCmd word).wellFormed = true := by
  unfold decodeCmd
  split_ifs with hnop hcompute hclear
  · rfl
  · rfl
  · rfl
  · exact decide_eq_true ((reservedCmd_iff _).mpr ⟨hnop, hcompute, hclear⟩)

/-- A word write is written as a word write at its own offset, a command as the WR32 to CTRL that it travels by. -/
theorem onBus_encode_decodeWr32 (off : Offset) (data : Word) :
    onBus (encode (decodeWr32 off data)) = some (mkDesc true 0b10#2 off, data) := by
  unfold decodeWr32
  split_ifs with hctrl hkey hmsg
  · rw [encode_decodeCmd, hctrl]; rfl
  · rw [hkey]; rfl
  · rw [hmsg]; rfl
  · rfl

theorem wellFormed_decodeWr32 (off : Offset) (data : Word) : (decodeWr32 off data).wellFormed = true := by
  unfold decodeWr32
  split_ifs with hctrl hkey hmsg
  · exact wellFormed_decodeCmd data
  · rfl
  · rfl
  · simp [Instr.wellFormed, hctrl, hkey, hmsg]

theorem wellFormed_decodeBus (desc : Desc) (data : Word) : (decodeBus desc data).wellFormed = true := by
  unfold decodeBus
  split_ifs
  · rfl
  · rfl
  · rfl
  · exact wellFormed_decodeWr32 _ _
  all_goals rfl

/-- The instruction of a write, or of an access of illegal size, is written as its descriptor and its data word. -/
theorem onBus_encode_decodeBus {w : Bool} {sz : BitVec 2} (off : Offset) (data : Word)
    (h : w = true ∨ sz = 0b11#2) :
    onBus (encode (decodeBus (mkDesc w sz off) data)) = some (mkDesc w sz off, data) := by
  rw [decodeBus_mkDesc]
  by_cases hsz : sz = 0b11#2
  · subst hsz; rfl
  obtain rfl := h.resolve_right hsz
  rcases sizeCode_cases sz with rfl | rfl | rfl | rfl
  · rfl
  · rfl
  · exact onBus_encode_decodeWr32 off data
  · exact absurd rfl hsz

/-- A read's instruction is written as its descriptor; it has no data. -/
theorem encode_decodeBus_read {sz : BitVec 2} (off : Offset) (data : Word) (hsz : sz ≠ 0b11#2) :
    encode (decodeBus (mkDesc false sz off) data) = .bus (mkDesc false sz off) 0 := by
  rw [decodeBus_mkDesc]
  rcases sizeCode_cases sz with rfl | rfl | rfl | rfl
  · rfl
  · rfl
  · rfl
  · exact absurd rfl hsz

/-! ### The micro-operations (R106, R107) -/

theorem wellFormed_decodeNorm (keyLen : Word) : (decodeNorm keyLen).wellFormed = true := by
  unfold decodeNorm
  split_ifs <;> rfl

theorem decodeWait_instr {p : Purpose} {answer : Option Purpose} {i j : Instr}
    (h : decodeWait p answer j = .instr i) : i = j := by
  unfold decodeWait at h
  split at h <;> cases h
  rfl

/-- Every micro-operation that the sequencer selects lies in its own row. -/
theorem wellFormed_decodeSeq {v : SeqView} {i : Instr} (h : decodeSeq v = .instr i) : i.wellFormed = true := by
  obtain ⟨code, keyLen, answer⟩ := v
  obtain ⟨q, rfl⟩ : ∃ q, code = SeqState.code q := ⟨_, (SeqState.code_ofCode code).symm⟩
  cases q
  case idle | done | error => cases h
  case kwait | iwait | owait => obtain rfl := decodeWait_instr h; rfl
  case norm => cases h; exact wellFormed_decodeNorm keyLen
  all_goals cases h; rfl

end Sys2Proof

/-! ### The obligations of the encoding -/

namespace Sys2Proof.Proofs

open Sys2Proof.Machine Sys2Proof.Safety

/-- Settles O7, by the instruction: the fields of its words come back out of them, and its being well formed shuts out
the rows that share its fields. -/
theorem decodeOfEncode : Obligations.DecodeOfEncode := by
  unfold Obligations.DecodeOfEncode
  intro i hi
  cases i with
  | rd8 | rd16 | rd32 | wr8 | wr16 | busIllegal => simp [encode, decode, decodeBus_mkDesc]
  | wr32 off data => simp [encode, decode, decodeBus_mkDesc, decodeWr32_of_wellFormed hi]
  | wr32KeyLen | wr32MsgLen => simp [encode, decode, decodeBus_mkDesc, decodeWr32]
  | nop | compute | clear => simp [encode, decode, decodeCmd_mkCmd]
  | rsvd cmd rest =>
    obtain ⟨hnop, hcompute, hclear⟩ := (reservedCmd_iff cmd).mp (of_decide_eq_true hi)
    simp only [encode, decode, decodeCmd_mkCmd, if_neg hnop, if_neg hcompute, if_neg hclear]
  | seqRsvd code => exact decodeSeq_reserved (of_decide_eq_true hi)
  | check | normShort | normExact | normLong | kwait | xipad | xopad | inner | iwait | outer | owait => rfl

/-- Settles O8: a descriptor is its fields, a CTRL word its command and its ignored bits. -/
theorem encodeOfDecode : Obligations.EncodeOfDecode := by
  unfold Obligations.EncodeOfDecode
  refine ⟨fun desc data => ⟨wellFormed_decodeBus desc data, fun h => ?_, fun hw hsz => ?_⟩,
    fun word => ⟨wellFormed_decodeCmd word, encode_decodeCmd word⟩, fun _ _ => wellFormed_decodeSeq⟩
  · have hback := onBus_encode_decodeBus (descOff desc) data h
    rwa [mkDesc_fields] at hback
  · have hback := encode_decodeBus_read (descOff desc) data hsz
    rwa [← hw, mkDesc_fields] at hback

/-- Settles O6: each word is evaluated. -/
theorem wordsOfTheSpecDecode : Obligations.WordsOfTheSpecDecode := by
  unfold Obligations.WordsOfTheSpecDecode
  decide

end Sys2Proof.Proofs
end

section
/-! PROOFS of the micro-operations (spec files 42_key_normalizer and 43_block_assembler): what each does in its own
state, and what they all leave alone. -/

namespace Sys2Proof.Machine

open Sys2Proof.Safety

/-! ### Scrub and Fail (R211, R212) -/

theorem State.wiped_scrub (s : State) : Wiped s.scrub :=
  ⟨fun _ => rfl, fun _ => rfl, rfl, rfl, rfl, rfl, rfl, rfl⟩

/-- Fail, met with an answer that is consumed or with none. -/
theorem State.failed_fail (code : BitVec 4) (hport : HPort) (s : State) :
    Failed code s (State.fail code { s with hport := hport }) :=
  ⟨State.wiped_fail _ _, rfl, rfl, rfl, rfl, rfl, rfl, rfl, rfl, rfl⟩

/-! ### The micro-operations that issue nothing (R170, R172, R200, R202) -/

theorem exec_check_ok {s : State} (hs : s.seq = .check) (hfit : Fits s) :
    exec .check s = .next { s with seq := .norm } := by
  obtain ⟨hkey, hmsg⟩ := hfit
  simp only [exec, execCheck, if_pos hs, if_neg (not_or.mpr ⟨not_lt.mpr hkey, not_lt.mpr hmsg⟩)]

theorem exec_check_bad {s : State} (hs : s.seq = .check)
    (hbad : Config.KEY_MAX < s.keyLen.toNat ∨ Config.MSG_MAX < s.msgLen.toNat) :
    exec .check s = .next (s.fail errInvalidSize) := by
  simp only [exec, execCheck, if_pos hs, if_pos hbad]

theorem exec_xipad {s : State} (hs : s.seq = .xipad) :
    exec .xipad s = .next { s with k0Ipad := xorAll Config.IPAD s.k0, seq := .xopad } := if_pos hs

theorem exec_xopad {s : State} (hs : s.seq = .xopad) :
    exec .xopad s = .next { s with k0Opad := xorAll Config.OPAD s.k0, seq := .inner } := if_pos hs

/-- The key's bytes by index, and 0 past them (R12, R36). -/
theorem State.getD_key (s : State) (i : Nat) :
    s.key.getD i 0 = if i < s.keyLen.toNat then s.keyBuf.read i else 0 := by
  rw [List.getD_eq_getElem?_getD]
  split
  · next h => rw [List.getElem?_eq_getElem (by simpa using h)]; exact Memory.getElem_slice _ _ _ _
  · next h => rw [List.getElem?_eq_none (by simpa using h)]; rfl

/-- The normalized key of at most one block, byte by byte (R172, R174). -/
theorem getElem_normalizeKey {s : State} (hk : s.keyLen.toNat ≤ Config.B) {i : Nat} (h : i < Config.B) :
    (normalizeKey s.key)[i] = if i < s.keyLen.toNat then s.keyBuf.read i else 0 := by
  simp only [normalizeKey_of_le (s.length_key.trans_le hk), padRight_getElem, State.getD_key]

/-! ### The micro-operations that issue a request (R80, R176, R204, R208) -/

/-- The state after HashIssue and the move to the wait state. -/
def State.issued (p : Purpose) (data : List Byte) (wait : SeqState) (s : State) : State :=
  { s with hport := .req p data, hcnt := s.hcnt + 1, issues := s.issues ++ [⟨p, data⟩], seq := wait }

/-- Inside its precondition HashIssue issues. -/
theorem hashIssue_ok {s : State} (p : Purpose) (data : List Byte) (wait : SeqState) (hp : s.hport = .empty)
    (hc : s.hcnt ≠ 3) : s.hashIssue p data wait = .next (s.issued p data wait) :=
  State.hashIssue_next.mpr ⟨hp, hc, rfl⟩

theorem exec_normLong {s : State} (hs : s.seq = .norm) (hk : Config.B < s.keyLen.toNat)
    (hm : s.keyLen.toNat ≤ Config.KEY_MAX) (hp : s.hport = .empty) (hc : s.hcnt ≠ 3) :
    exec .normLong s = .next (s.issued .key s.key .kwait) := by
  simp only [exec, execNormLong, if_pos (And.intro hs hk), if_neg (not_lt.mpr hm), hashIssue_ok _ _ _ hp hc]

theorem exec_inner {s : State} (hs : s.seq = .inner) (hm : s.msgLen.toNat ≤ Config.MSG_MAX) (hp : s.hport = .empty)
    (hc : s.hcnt ≠ 3) : exec .inner s = .next (s.issued .inner (s.k0Ipad.toList ++ s.msg) .iwait) := by
  simp only [exec, execInner, if_pos hs, if_neg (not_lt.mpr hm), hashIssue_ok _ _ _ hp hc]

theorem exec_outer {s : State} (hs : s.seq = .outer) (hp : s.hport = .empty) (hc : s.hcnt ≠ 3) :
    exec .outer s = .next (s.issued .outer (s.k0Opad.toList ++ s.innerDigest.toList) .owait) := by
  simp only [exec, execOuter, if_pos hs, hashIssue_ok _ _ _ hp hc]

/-! ### The micro-operations that consume an answer (R83, R178, R206, R210) -/

theorem exec_kwait_eq (s : State) :
    exec .kwait s = s.consume .kwait .key fun d t => { t with k0 := padRight Config.B d.toList, seq := .xipad } := rfl

theorem exec_iwait_eq (s : State) :
    exec .iwait s = s.consume .iwait .inner fun d t => { t with innerDigest := d, seq := .outer } := rfl

theorem exec_owait_eq (s : State) :
    exec .owait s = s.consume .owait .outer fun d t => { ({ t with tag := d } : State).scrub with seq := .done } := rfl

/-- A FailR answer is consumed and fails the call with HASH_FAIL (R248). -/
theorem consume_failR_failed {wait : SeqState} {p : Purpose} (onOk : Vector Byte Config.L → State → State) {s : State}
    (hs : s.seq = wait) (hp : s.hport = .rsp p .failR) :
    ∃ t, s.consume wait p onOk = .next t ∧ Failed errHashFail s t ∧ t.hport = .empty :=
  ⟨_, State.consume_failR onOk hs hp, State.failed_fail _ _ s, rfl⟩

/-! ### What the KeyNormalizer reads (R184) -/

/-- Buffers that agree below `key_len` hold the same key. -/
theorem key_congr {s : State} {m : Memory} (h : ∀ a, a < s.keyLen.toNat → m.read a = s.keyBuf.read a) :
    State.key { s with keyBuf := m } = s.key := Memory.slice_congr h

/-- NORM.EXACT copies the key: it is as long as a block. -/
theorem exec_normExact_eq (s : State) :
    exec .normExact s =
      if s.seq = .norm ∧ s.keyLen.toNat = Config.B then .next { s with k0 := padRight Config.B s.key, seq := .xipad }
      else .next s := by
  simp only [exec, execNormExact]
  split
  · next hc => rw [State.key, hc.2]
  · rfl

/-- A micro-operation that pads the key, where the length allows it, looks at the buffer for the key alone. -/
theorem padKey_congr {i : Instr} {s t : State} {m : Memory} {cond : Word → Prop} [DecidablePred cond]
    (hi : ∀ u, exec i u =
      if u.seq = .norm ∧ cond u.keyLen then .next { u with k0 := padRight Config.B u.key, seq := .xipad } else .next u)
    (hm : ∀ a, a < s.keyLen.toNat → m.read a = s.keyBuf.read a) (h : exec i s = .next t) :
    exec i { s with keyBuf := m } = .next { t with keyBuf := m } := by
  rw [hi] at h ⊢
  rw [key_congr hm]
  split at h <;> cases h
  · next hc => exact if_pos hc
  · next hc => exact if_neg hc

/-- NORM.LONG looks at the buffer for the key alone, which it issues. -/
theorem exec_normLong_congr {s t : State} {m : Memory} (hm : ∀ a, a < s.keyLen.toNat → m.read a = s.keyBuf.read a)
    (h : exec .normLong s = .next t) : exec .normLong { s with keyBuf := m } = .next { t with keyBuf := m } := by
  simp only [exec, execNormLong, key_congr hm] at h ⊢
  split at h
  · split at h
    · cases h
    · next hc hk =>
      obtain ⟨hp, hcnt, rfl⟩ := State.hashIssue_next.mp h
      rw [if_pos hc, if_neg hk]
      exact State.hashIssue_next.mpr ⟨hp, hcnt, rfl⟩
  · next hc => cases h; exact if_neg hc

/-! ### The frame of the micro-operations -/

/-- No move of the Core touches the Host's reply or the turns to come. -/
theorem CoreMove.around_eq {s t : State} (h : CoreMove s t) :
    t.reply = s.reply ∧ t.agenda = s.agenda ∧ t.tick = s.tick := by
  cases h <;> exact ⟨rfl, rfl, rfl⟩

/-- A move of the Core changes nothing, ends the call and scrubs, or keeps the call's inputs, the tag and ERRCODE. -/
theorem CoreMove.ends_or_keeps {s t : State} (h : CoreMove s t) :
    t = s ∨ ((t.seq = .done ∨ t.seq = .error) ∧ Wiped t)
      ∨ (t.keyBuf = s.keyBuf ∧ t.msgBuf = s.msgBuf ∧ t.keyLen = s.keyLen ∧ t.msgLen = s.msgLen ∧ t.tag = s.tag
          ∧ t.errcode = s.errcode) := by
  cases h with
  | holds => exact .inl rfl
  | checkBad | kwaitBad | iwaitBad | owaitBad => exact .inr (.inl ⟨.inr rfl, State.wiped_fail _ _⟩)
  | owaitOk => exact .inr (.inl ⟨.inl rfl, s.wiped_scrub⟩)
  | _ => exact .inr (.inr ⟨rfl, rfl, rfl, rfl, rfl, rfl⟩)

end Sys2Proof.Machine

/-! ### The obligations of the KeyNormalizer and the block assembler -/

namespace Sys2Proof.Proofs

open Sys2Proof.Machine Sys2Proof.Safety

/-- Settles O24: CHECK's two branches. -/
theorem checkComparesTheLengths : Obligations.CheckComparesTheLengths := by
  unfold Obligations.CheckComparesTheLengths
  exact fun s hs => ⟨exec_check_ok hs, fun hbad => ⟨_, exec_check_bad hs hbad, State.failed_fail _ s.hport s, rfl⟩⟩

/-- Settles O25: a key shorter than a block normalizes to itself and zero bytes. -/
theorem shortKeyIsPadded : Obligations.ShortKeyIsPadded := by
  unfold Obligations.ShortKeyIsPadded
  intro s hs hk
  refine ⟨_, exec_normShort hs hk, rfl, ?_, fun i hi => getElem_normalizeKey hk.le hi⟩
  have hle : s.key.length ≤ Config.B := s.length_key.trans_le hk.le
  calc (normalizeKey s.key).toList
      = (padRight Config.B s.key).toList := by rw [normalizeKey_of_le hle]
    _ = s.key ++ List.replicate (Config.B - s.keyLen.toNat) 0 := by rw [padRight_toList hle, s.length_key]

/-- Settles O27: a key of one block normalizes to itself. -/
theorem exactKeyIsCopied : Obligations.ExactKeyIsCopied := by
  unfold Obligations.ExactKeyIsCopied
  intro s hs hk
  exact ⟨_, exec_normExact hs hk, rfl, fun i hi => (getElem_normalizeKey hk.le hi).trans (if_pos (hk ▸ hi))⟩

/-- Settles O28, as HashIssue inside its precondition. -/
theorem longKeyIsIssued : Obligations.LongKeyIsIssued := by
  unfold Obligations.LongKeyIsIssued
  exact fun s hs hk hm hp hc => exec_normLong hs hk hm hp hc

/-- Settles O29: KWAIT consumes an answer to the key's request, and pads its digest to one block. -/
theorem keyHashIsConsumed : Obligations.KeyHashIsConsumed := by
  unfold Obligations.KeyHashIsConsumed
  intro s hs
  rw [exec_kwait_eq]
  refine ⟨fun d hp => ⟨_, State.consume_ok _ hs hp, rfl, ?_⟩, consume_failR_failed _ hs, State.consume_holds _⟩
  have hlen : d.toList.length = 32 := d.length_toList
  exact (padRight_toList (by rw [hlen]; decide)).trans (by rw [hlen]; rfl)

/-- Settles O32: NORM.SHORT and NORM.EXACT leave the normalized key, NORM.LONG issues the key. -/
theorem bytesPastTheKeyDoNotMatter : Obligations.BytesPastTheKeyDoNotMatter := by
  unfold Obligations.BytesPastTheKeyDoNotMatter
  intro i s t m hi hm h
  rcases hi with rfl | rfl | rfl
  · exact padKey_congr (cond := fun k => k.toNat < Config.B) (fun _ => rfl) hm h
  · exact padKey_congr (cond := fun k => k.toNat = Config.B) exec_normExact_eq hm h
  · exact exec_normLong_congr hm h

/-- Settles O33: each byte of a pad comes from the byte of `k0` at its index. -/
theorem padsAreXoredByteByByte : Obligations.PadsAreXoredByteByByte := by
  unfold Obligations.PadsAreXoredByteByByte
  exact ⟨fun s hs => ⟨_, exec_xipad hs, rfl, xorAll_getElem _ _⟩,
    fun s hs => ⟨_, exec_xopad hs, rfl, xorAll_getElem _ _⟩⟩

/-- Settles O34, as HashIssue inside its precondition. -/
theorem innerBlockIsIssued : Obligations.InnerBlockIsIssued := by
  unfold Obligations.InnerBlockIsIssued
  exact fun s hs hm hp hc => exec_inner hs hm hp hc

/-- Settles O35: IWAIT consumes an answer to the inner request. -/
theorem innerHashIsConsumed : Obligations.InnerHashIsConsumed := by
  unfold Obligations.InnerHashIsConsumed
  intro s hs
  rw [exec_iwait_eq]
  exact ⟨fun d hp => State.consume_ok _ hs hp, consume_failR_failed _ hs, State.consume_holds _⟩

/-- Settles O36, as HashIssue inside its precondition; the block is 64 and 32 bytes. -/
theorem outerBlockIsIssued : Obligations.OuterBlockIsIssued := by
  unfold Obligations.OuterBlockIsIssued
  exact fun s hs hp hc => ⟨exec_outer hs hp hc, by simp [Config.B, Config.L]⟩

/-- Settles O37: OWAIT consumes an answer to the outer request, and Scrub keeps the tag. -/
theorem outerHashGivesTheTag : Obligations.OuterHashGivesTheTag := by
  unfold Obligations.OuterHashGivesTheTag
  intro s hs
  rw [exec_owait_eq]
  refine ⟨fun d hp => ⟨_, State.consume_ok _ hs hp, s.wiped_scrub, rfl, rfl, rfl, rfl, rfl, rfl, ?_⟩,
    consume_failR_failed _ hs, State.consume_holds _⟩
  exact ⟨rfl, rfl, rfl, rfl⟩

/-- Settles O45: a micro-operation makes one of the Core's moves. -/
theorem microOperationFrame : Obligations.MicroOperationFrame := by
  unfold Obligations.MicroOperationFrame
  intro i s t hi h
  have hm := exec_coreMove hi h
  obtain ⟨hreply, hagenda, htick⟩ := hm.around_eq
  exact ⟨hm.ign_eq, hreply, hagenda, htick, hm.ends_or_keeps⟩

end Sys2Proof.Proofs
end

section
/-! PROOFS of a step under the invariant: it always goes on, a running call's step is the one that is awaited or leaves
the call where it is, and the step that ends a call wipes it (10_state R46, 20_memory R82-R86). -/

namespace Sys2Proof.Safety

open Sys2Proof.Machine

/-! ### What the invariant says whatever the sequencer state is -/

theorem Phase.unreserved {s : State} (h : Phase s) : s.seq.reserved = false := by
  cases hq : s.seq
  case reservedC | reservedD | reservedE | reservedF => exact (h.clause hq).elim
  all_goals rfl

theorem Phase.errcode_legal {s : State} (h : Phase s) : errReserved s.errcode = false := by
  cases hq : s.seq
  case reservedC | reservedD | reservedE | reservedF => exact (h.clause hq).elim
  case done =>
    obtain ⟨-, -, hcode, -⟩ := h.clause hq
    exact congrArg errReserved hcode
  case error =>
    obtain ⟨-, -, -, ⟨hcode, -⟩ | ⟨hcode, -⟩⟩ := h.clause hq <;> exact congrArg errReserved hcode
  all_goals
    obtain ⟨-, -, ⟨hcode, -⟩, -⟩ := h.clause hq
    exact congrArg errReserved hcode

/-- A request is of the purpose that the port is outstanding for. -/
theorem Outstanding.purpose_of_req {p q : Purpose} {data x : List Byte} (h : Outstanding p data (.req q x)) :
    q = p := by
  rcases h with h | h | h <;> cases h
  rfl

/-- A request stands in the port in the wait state of its purpose only. -/
theorem Phase.waits {s : State} (h : Phase s) {p : Purpose} {data : List Byte} (hp : s.hport = .req p data) :
    (s.seq = .kwait ∧ p = .key) ∨ (s.seq = .iwait ∧ p = .inner) ∨ (s.seq = .owait ∧ p = .outer) := by
  cases hq : s.seq
  case reservedC | reservedD | reservedE | reservedF => exact (h.clause hq).elim
  case kwait =>
    obtain ⟨hout, -⟩ := h.clause hq
    exact .inl ⟨rfl, Outstanding.purpose_of_req (hp ▸ hout)⟩
  case iwait =>
    obtain ⟨hout, -⟩ := h.clause hq
    exact .inr (.inl ⟨rfl, Outstanding.purpose_of_req (hp ▸ hout)⟩)
  case owait =>
    obtain ⟨hout, -⟩ := h.clause hq
    exact .inr (.inr ⟨rfl, Outstanding.purpose_of_req (hp ▸ hout)⟩)
  all_goals
    obtain ⟨hempty, -⟩ := h.clause hq
    cases hp.symm.trans hempty

/-- HCNT has room for one more request after at most two (R30). -/
theorem Counted.hcnt_ne_three {s : State} {reqs : List Issue} (h : Counted s reqs) (hlen : reqs.length ≤ 2) :
    s.hcnt ≠ 3 := fun hc => by
  have h3 : reqs.length = 3 := h.1.symm.trans (congrArg BitVec.toNat hc)
  omega

theorem length_keyRequests_le (key : List Byte) : (keyRequests key).length ≤ 1 := by
  rw [length_keyRequests]; split <;> decide

theorem length_innerRequests_le (key msg : List Byte) : (innerRequests key msg).length ≤ 2 := by
  have := length_keyRequests_le key
  simp only [innerRequests, List.length_append, List.length_singleton]
  omega

end Sys2Proof.Safety

namespace Sys2Proof.Machine

open Sys2Proof.Safety

/-- BUSY is a matter of the sequencer state (R27). -/
theorem State.busy_of_seq {s : State} {q : SeqState} (h : s.seq = q) : s.busy = q.busy := congrArg SeqState.busy h

/-! ### The Core's turn under the invariant (R83, R106) -/

/-- The Core has no step in IDLE, DONE and ERROR. -/
theorem coreTurn_of_free {s : State} (hb : s.busy = false) (hq : s.seq.reserved = false) :
    coreTurn s = .next s := by
  rw [coreTurn_eq]
  cases h : s.seq <;> simp only [State.busy, h, SeqState.busy, SeqState.reserved, Bool.true_eq_false] at hb hq <;>
    rfl

/-- The Core holds in a wait state whose request is not answered. -/
theorem coreTurn_of_req {s : State} {p : Purpose} {data : List Byte}
    (hw : s.seq = .kwait ∨ s.seq = .iwait ∨ s.seq = .owait) (hp : s.hport = .req p data) :
    coreTurn s = .next s := by
  rw [coreTurn_eq, hp]
  rcases hw with hq | hq | hq <;> rw [hq] <;> rfl

/-- In NORM the Core goes on to XIPAD, or for an oversized key to KWAIT. -/
theorem exec_decodeNorm {s : State} (h : Phase s) (hs : s.seq = .norm) :
    ∃ t, exec (decodeNorm s.keyLen) s = .next t
      ∧ t.seq = if Config.B < s.keyLen.toNat then .kwait else .xipad := by
  obtain ⟨hport, -, -, hcnt, hkey, -⟩ := h.clause hs
  have hroom : s.hcnt ≠ 3 := by rw [show s.hcnt = 0 from hcnt]; decide
  unfold decodeNorm
  split
  · next hk => exact ⟨_, exec_normShort hs hk, (if_neg (by omega)).symm⟩
  · split
    · next hk => exact ⟨_, exec_normExact hs hk, (if_neg (by omega)).symm⟩
    · next hk => exact ⟨_, exec_normLong hs (by omega) hkey hport hroom, (if_pos (by omega)).symm⟩

/-- An answered wait state consumes its answer, and goes on or fails. -/
theorem consume_answered {i : Instr} {wait next : SeqState} {p : Purpose} {data : List Byte} {s : State}
    {onOk : Vector Byte Config.L → State → State} (hi : exec i s = s.consume wait p onOk) (hs : s.seq = wait)
    (hout : Outstanding p data s.hport) (hreq : ∀ q x, s.hport ≠ .req q x) (hnext : ∀ d u, (onOk d u).seq = next) :
    ∃ t, (if s.hport.answer = some p then exec i s else .next s) = .next t ∧ t.seq ∈ [next, .error] := by
  rcases hout with hp | hp | hp
  · exact absurd hp (hreq _ _)
  · exact ⟨_, by rw [hi, if_pos (by rw [hp]; rfl), State.consume_ok onOk hs hp], by simp [hnext]⟩
  · exact ⟨_, by rw [hi, if_pos (by rw [hp]; rfl), State.consume_failR onOk hs hp], by simp⟩

/-- A running call that waits for no answer goes on to a successor in the Core's turn. -/
theorem coreTurn_successor {s : State} (h : Phase s) (hb : s.busy = true) (hreq : ∀ p data, s.hport ≠ .req p data) :
    ∃ t, coreTurn s = .next t ∧ t.seq ∈ successors s.seq := by
  rw [coreTurn_eq]
  cases hq : s.seq <;> simp only [State.busy, hq, SeqState.busy, Bool.false_eq_true] at hb
  case check =>
    by_cases hfit : Fits s
    · exact ⟨_, exec_check_ok hq hfit, by simp [successors]⟩
    · exact ⟨_, exec_check_bad hq (by simpa only [Fits, not_and_or, not_le] using hfit), by simp [successors]⟩
  case norm =>
    obtain ⟨t, he, ht⟩ := exec_decodeNorm h hq
    exact ⟨t, he, by rw [ht]; split <;> simp [successors]⟩
  case kwait =>
    obtain ⟨hout, -⟩ := h.clause hq
    exact consume_answered (exec_kwait_eq s) hq hout hreq fun _ _ => rfl
  case iwait =>
    obtain ⟨hout, -⟩ := h.clause hq
    exact consume_answered (exec_iwait_eq s) hq hout hreq fun _ _ => rfl
  case owait =>
    obtain ⟨hout, -⟩ := h.clause hq
    exact consume_answered (exec_owait_eq s) hq hout hreq fun _ _ => rfl
  case xipad => exact ⟨_, exec_xipad hq, by simp [successors]⟩
  case xopad => exact ⟨_, exec_xopad hq, by simp [successors]⟩
  case inner =>
    obtain ⟨hport, -, -, ⟨-, hmsg⟩, hcnt⟩ := h.clause hq
    have hroom := hcnt.hcnt_ne_three ((length_keyRequests_le _).trans one_le_two)
    exact ⟨_, exec_inner hq hmsg hport hroom, by simp [successors, State.issued]⟩
  case outer =>
    obtain ⟨hport, -, -, -, hcnt⟩ := h.clause hq
    have hroom := hcnt.hcnt_ne_three (length_innerRequests_le _ _)
    exact ⟨_, exec_outer hq hport hroom, by simp [successors, State.issued]⟩

/-- The Core's turn goes on, or holds. -/
theorem coreTurn_next {s : State} (h : Phase s) : ∃ t, coreTurn s = .next t := by
  cases hb : s.busy
  · exact ⟨s, coreTurn_of_free hb h.unreserved⟩
  by_cases hreq : ∃ p data, s.hport = .req p data
  · obtain ⟨p, data, hp⟩ := hreq
    exact ⟨s, coreTurn_of_req ((h.waits hp).imp And.left (Or.imp And.left And.left)) hp⟩
  · obtain ⟨t, ht, -⟩ := coreTurn_successor h hb fun p data hp => hreq ⟨p, data, hp⟩
    exact ⟨t, ht⟩

/-! ### No step stops (I6) -/

theorem step_host {s : State} {desc : Desc} {data : Word} (hn : s.nextTurn = .host desc data)
    (he : errReserved s.errcode = false) (hq : s.seq.reserved = false) :
    step s = exec (decodeBus desc data) s.takeTurn := by
  rw [step, hn]
  exact (legalTurn_ok (by simpa using he)).trans (hostTurn_ok (by simpa using hq))

theorem step_hashUnit {s : State} {ok : Bool} (hn : s.nextTurn = .hashUnit ok) (he : errReserved s.errcode = false) :
    step s = .next (s.takeTurn.hashAnswer ok) := by
  rw [step, hn]
  exact legalTurn_ok (by simpa using he)

/-- Under the invariant every turn but a platform access that misses HKB makes a step. -/
theorem step_next_or_outside {s : State} (hI : Inv s) :
    (∃ t, step s = .next t) ∨ ∃ addr w sz data, s.nextTurn = .bus addr w sz data ∧ OutsideWindow addr := by
  have he := hI.phase.errcode_legal
  have hq := hI.phase.unreserved
  cases hn : s.nextTurn with
  | host desc data =>
    obtain ⟨t, ht, -⟩ := exec_hostMove s.takeTurn (decodeBus_fromHost desc data).1
    exact .inl ⟨t, (step_host hn he hq).trans ht⟩
  | bus addr w sz data =>
    by_cases hin : Config.BASE ≤ addr ∧ addr < Config.BASE + 0x20000
    · obtain ⟨t, ht, -⟩ := exec_hostMove s.takeTurn (decodeBus_fromHost (busDesc addr w sz) data).1
      refine .inl ⟨t, ?_⟩
      rw [step_bus hn he, busTurn_inside _ _ _ _ hin, hostTurn_ok (by simpa using hq), ht]
    · exact .inr ⟨addr, w, sz, data, rfl, hin⟩
  | core =>
    obtain ⟨t, ht⟩ := coreTurn_next (inv_takeTurn hI).phase
    exact .inl ⟨t, (step_core hn he).trans ht⟩
  | hashUnit ok => exact .inl ⟨_, step_hashUnit hn he⟩
  | reset => exact .inl ⟨_, step_reset hn⟩

theorem step_of_undisturbed {s : State} (hI : Inv s) (hu : Undisturbed s.nextTurn) : ∃ t, step s = .next t := by
  refine (step_next_or_outside hI).resolve_right ?_
  rintro ⟨addr, w, sz, data, hn, hout⟩
  rw [hn] at hu
  exact hu hout

/-! ### What every step keeps, and what the last step of a call leaves -/

/-- No instruction of the Host's touches the port, the history or the turns to come. -/
theorem HostMove.around_eq {s t : State} {i : Instr} (h : HostMove s i t) :
    t.hport = s.hport ∧ t.issues = s.issues ∧ t.agenda = s.agenda ∧ t.tick = s.tick := by
  cases h <;> exact ⟨rfl, rfl, rfl, rfl⟩

/-- A step takes one turn and no other. -/
theorem step_agenda {s t : State} (h : step s = .next t) : t.agenda = s.takeTurn.agenda := by
  cases step_move h with
  | host _ _ _ _ _ _ hm => exact hm.around_eq.2.2.1
  | core _ _ hm => exact hm.around_eq.2.1
  | hashUnit ok => simp
  | reset => rfl

theorem step_agenda_cons {s t : State} {turn : Turn} {rest : List Turn} (ha : s.agenda = turn :: rest)
    (h : step s = .next t) : t.agenda = rest := by
  rw [step_agenda h, takeTurn_cons ha]

/-- The Core ends a call by Fail or by OWAIT, and both scrub (R211). -/
theorem CoreMove.wiped_of_ends {s t : State} (h : CoreMove s t) (hb : s.busy = true) (ht : t.busy = false) :
    Wiped t := by
  cases h with
  | holds => cases hb.symm.trans ht
  | checkBad | kwaitBad | iwaitBad | owaitBad => exact State.wiped_fail _ _
  | owaitOk => exact s.wiped_scrub
  | _ => cases ht

/-- While BUSY the Host's instructions leave the sequencer where it is. -/
theorem HostMove.seq_eq {s t : State} {i : Instr} (h : HostMove s i t) (hb : s.busy = true) : t.seq = s.seq := by
  cases h with
  | started _ _ hf | cleared _ _ hf => cases hb.symm.trans hf
  | _ => rfl

/-- The step that ends a call leaves all call-scoped state zero, whoever takes it (R211, R276). -/
theorem step_ends_wiped {s t : State} (hb : s.busy = true) (h : step s = .next t) (ht : t.busy = false) :
    Wiped t := by
  have hb' : s.takeTurn.busy = true := by simpa using hb
  cases step_move h with
  | host _ _ _ _ _ _ hm => cases hb'.symm.trans ((State.busy_of_seq (hm.seq_eq hb')).symm.trans ht)
  | core _ _ hm => exact hm.wiped_of_ends hb' ht
  | hashUnit ok => cases hb'.symm.trans ((State.busy_of_seq (State.hashAnswer_seq ok _)).symm.trans ht)
  | reset => exact ⟨fun _ => rfl, fun _ => rfl, rfl, rfl, rfl, rfl, rfl, rfl⟩

end Sys2Proof.Machine
end

section
/-! PROOFS that a running call ends: each state of a call waits for one turn, and only that turn brings it nearer to its
end (20_memory R86, 70_reset_and_hazards R279). -/

namespace Sys2Proof.Safety

open Sys2Proof.Machine

/-! ### The turn that a running call waits for -/

/-- The turn that brings a running call on: the HashUnit's while a request stands in the port, else the Core's. -/
def Awaits (s : State) (turn : Turn) : Prop :=
  match s.hport with
  | .req _ _ => ∃ ok, turn = .hashUnit ok
  | .empty | .rsp _ _ => turn = .core

theorem awaits_of_req {s : State} {p : Purpose} {data : List Byte} (h : s.hport = .req p data) (turn : Turn) :
    Awaits s turn ↔ ∃ ok, turn = .hashUnit ok := by rw [Awaits, h]

theorem awaits_of_no_req {s : State} (h : ∀ p data, s.hport ≠ .req p data) (turn : Turn) :
    Awaits s turn ↔ turn = .core := by
  unfold Awaits
  split
  · next p data hp => exact absurd hp (h p data)
  all_goals rfl

/-- Where HASH_LIVE, a fair round has the turn that is waited for, whichever that is. -/
theorem FairRound.awaited {ts : List Turn} (h : FairRound true ts) (s : State) : ∃ turn ∈ ts, Awaits s turn := by
  obtain ⟨hcore, hhash, -⟩ := h
  by_cases hreq : ∃ p data, s.hport = .req p data
  · obtain ⟨p, data, hp⟩ := hreq
    obtain ⟨ok, hok⟩ := hhash rfl
    exact ⟨_, hok, (awaits_of_req hp _).mpr ⟨ok, rfl⟩⟩
  · exact ⟨_, hcore, (awaits_of_no_req (fun p data hp => hreq ⟨p, data, hp⟩) _).mpr rfl⟩

/-! ### The steps left (R279) -/

theorem stepsLeft_le (s : State) : stepsLeft s ≤ 12 := by
  cases hq : s.seq <;> simp only [stepsLeft, hq] <;> grind

theorem stepsLeft_pos {s : State} (hb : s.busy = true) : 0 < stepsLeft s := by
  cases hq : s.seq <;> simp only [State.busy, hq, SeqState.busy, Bool.false_eq_true] at hb <;>
    simp only [stepsLeft, hq] <;> grind

/-- The steps left depend on the sequencer state and the port alone. -/
theorem stepsLeft_congr {s t : State} (hq : t.seq = s.seq) (hp : t.hport = s.hport) : stepsLeft t = stepsLeft s := by
  simp only [stepsLeft, hq, hp]

/-- A successor has fewer steps left, answered or not. -/
theorem stepsLeft_lt_of_successor {s t : State} (h : t.seq ∈ successors s.seq) : stepsLeft t < stepsLeft s := by
  cases hs : s.seq <;> simp only [hs, successors, List.mem_cons, List.not_mem_nil, or_false] at h <;>
    simp only [stepsLeft, hs] <;> grind

/-- The HashUnit's answer to a wait state's request leaves one step less. -/
theorem stepsLeft_hashAnswer_lt {s : State} (h : Phase s) {p : Purpose} {data : List Byte} (hp : s.hport = .req p data)
    (ok : Bool) : stepsLeft (s.hashAnswer ok) < stepsLeft s := by
  rw [State.hashAnswer_req ok hp]
  rcases h.waits hp with ⟨hq, rfl⟩ | ⟨hq, rfl⟩ | ⟨hq, rfl⟩ <;> simp [stepsLeft, hq, hp, HPort.answer]

end Sys2Proof.Safety

namespace Sys2Proof.Machine

open Sys2Proof.Safety

/-! ### A turn of a running call -/

/-- The turn that a running call waits for brings it nearer to its end. -/
theorem step_awaited {s : State} (hI : Inv s) (hb : s.busy = true) (ha : Awaits s s.nextTurn) :
    ∃ t, step s = .next t ∧ stepsLeft t < stepsLeft s := by
  have he := hI.phase.errcode_legal
  have hphase := (inv_takeTurn hI).phase
  have hsame : stepsLeft s.takeTurn = stepsLeft s := stepsLeft_congr (takeTurn_seq s) (takeTurn_hport s)
  by_cases hreq : ∃ p data, s.hport = .req p data
  · obtain ⟨p, data, hp⟩ := hreq
    obtain ⟨ok, hn⟩ := (awaits_of_req hp _).mp ha
    exact ⟨_, step_hashUnit hn he, hsame ▸ stepsLeft_hashAnswer_lt hphase ((takeTurn_hport s).trans hp) ok⟩
  · have hnone : ∀ p data, s.hport ≠ .req p data := fun p data hp => hreq ⟨p, data, hp⟩
    have hn := (awaits_of_no_req hnone _).mp ha
    obtain ⟨t, ht, hsucc⟩ := coreTurn_successor hphase (by simpa using hb) (by simpa using hnone)
    exact ⟨t, (step_core hn he).trans ht, hsame ▸ stepsLeft_lt_of_successor hsucc⟩

/-- Any other turn leaves a running call where it is. -/
theorem step_not_awaited {s t : State} (hI : Inv s) (hb : s.busy = true) (hu : Undisturbed s.nextTurn)
    (ha : ¬Awaits s s.nextTurn) (h : step s = .next t) : t.seq = s.seq ∧ t.hport = s.hport := by
  cases step_move h with
  | host _ _ _ _ _ _ hm => simpa using And.intro (hm.seq_eq (by simpa using hb)) hm.around_eq.1
  | core hn _ _ =>
    obtain ⟨p, data, hp⟩ : ∃ p data, s.hport = .req p data := by
      by_contra hreq
      exact ha ((awaits_of_no_req (fun p data hp => hreq ⟨p, data, hp⟩) _).mpr hn)
    have hwait := (hI.phase.waits hp).imp And.left (Or.imp And.left And.left)
    rw [step_core hn hI.phase.errcode_legal, coreTurn_of_req (by simpa using hwait) ((takeTurn_hport s).trans hp)] at h
    cases h
    exact ⟨takeTurn_seq s, takeTurn_hport s⟩
  | hashUnit ok hn =>
    have hnone : ∀ p data, s.takeTurn.hport ≠ .req p data := fun p data hp =>
      ha ((awaits_of_req ((takeTurn_hport s).symm.trans hp) _).mpr ⟨ok, hn⟩)
    rw [State.hashAnswer_idle ok hnone]
    exact ⟨takeTurn_seq s, takeTurn_hport s⟩
  | reset hn => rw [hn] at hu; exact hu.elim

/-- An undisturbed turn of a running call brings it nearer to its end, or was not waited for. -/
theorem step_running {s : State} (hI : Inv s) (hb : s.busy = true) (hu : Undisturbed s.nextTurn) :
    ∃ t, step s = .next t
      ∧ (stepsLeft t < stepsLeft s ∨ t.seq = s.seq ∧ t.hport = s.hport ∧ ¬Awaits s s.nextTurn) := by
  by_cases ha : Awaits s s.nextTurn
  · obtain ⟨t, hstep, hlt⟩ := step_awaited hI hb ha
    exact ⟨t, hstep, .inl hlt⟩
  · obtain ⟨t, hstep⟩ := step_of_undisturbed hI hu
    obtain ⟨hseq, hport⟩ := step_not_awaited hI hb hu ha hstep
    exact ⟨t, hstep, .inr ⟨hseq, hport, ha⟩⟩

/-! ### Rounds of turns -/

/-- The call is over after at most `k` steps. -/
def EndsWithin (k : Nat) (s : State) : Prop := ∃ n t, n ≤ k ∧ core.run n s = .next t ∧ t.busy = false

theorem EndsWithin.mono {k l : Nat} {s : State} (h : EndsWithin k s) (hkl : k ≤ l) : EndsWithin l s := by
  obtain ⟨n, t, hn, hrun, hb⟩ := h
  exact ⟨n, t, hn.trans hkl, hrun, hb⟩

/-- Runs compose. -/
theorem run_add {k l : Nat} {s t : State} (h : core.run k s = .next t) : core.run (k + l) s = core.run l t := by
  induction k generalizing s with
  | zero => cases h; rw [Nat.zero_add]
  | succ k ih =>
    obtain ⟨u, hstep, hrest⟩ := run_succ_next h
    rw [Nat.succ_add, run_succ hstep, ih hrest]

theorem EndsWithin.of_run {k l : Nat} {s t : State} (hrun : core.run k s = .next t) (h : EndsWithin l t) :
    EndsWithin (k + l) s := by
  obtain ⟨n, u, hn, hrest, hb⟩ := h
  exact ⟨k + n, u, by omega, (run_add hrun).trans hrest, hb⟩

/-- Undisturbed turns end a running call, or leave it running and no farther from its end: nearer, if the turn that it
waits for is among them. -/
theorem run_turns {ts rest : List Turn} {s : State} (hI : Inv s) (hb : s.busy = true) (ha : s.agenda = ts ++ rest)
    (hu : ∀ turn ∈ ts, Undisturbed turn) :
    EndsWithin ts.length s ∨ ∃ t, core.run ts.length s = .next t ∧ Inv t ∧ t.busy = true ∧ t.agenda = rest
      ∧ stepsLeft t ≤ stepsLeft s ∧ ((∃ turn ∈ ts, Awaits s turn) → stepsLeft t < stepsLeft s) := by
  induction ts generalizing s with
  | nil => exact .inr ⟨s, rfl, hI, hb, ha, le_rfl, by simp⟩
  | cons turn ts ih =>
    have hn : s.nextTurn = turn := nextTurn_cons ha
    obtain ⟨u, hstep, hfirst⟩ := step_running hI hb (hn ▸ hu turn List.mem_cons_self)
    have hrun : core.run 1 s = .next u := run_succ hstep
    rw [List.length_cons, Nat.add_comm]
    by_cases hub : u.busy = true
    swap
    · exact .inl ⟨1, u, Nat.le_add_right _ _, hrun, by simpa using hub⟩
    rcases ih (step_keeps_inv hI hstep) hub (step_agenda_cons ha hstep) fun x hx => hu x (List.mem_cons_of_mem _ hx)
      with hend | ⟨t, hrest, htI, htb, hta, hle, hlt⟩
    · exact .inl (.of_run hrun hend)
    refine .inr ⟨t, (run_add hrun).trans hrest, htI, htb, hta, ?_⟩
    rcases hfirst with hless | ⟨hseq, hport, hnot⟩
    · exact ⟨by omega, fun _ => by omega⟩
    · rw [← stepsLeft_congr hseq hport]
      refine ⟨hle, fun ⟨x, hx, hxa⟩ => hlt ⟨x, ?_, by rwa [Awaits, hport]⟩⟩
      exact (List.mem_cons.mp hx).resolve_left fun he => hnot (hn ▸ he ▸ hxa)

/-- A call ends in as many fair rounds as it has steps left. -/
theorem endsWithin_rounds {rounds : List (List Turn)} {rest : List Turn} {s : State} (hI : Inv s)
    (hb : s.busy = true) (ha : s.agenda = rounds.flatten ++ rest) (hf : ∀ r ∈ rounds, FairRound true r)
    (hle : stepsLeft s ≤ rounds.length) : EndsWithin rounds.flatten.length s := by
  induction rounds generalizing s with
  | nil => exact absurd hle (not_le.mpr (stepsLeft_pos hb))
  | cons r rounds ih =>
    have hr := hf r List.mem_cons_self
    rw [List.flatten_cons, List.append_assoc] at ha
    rw [List.flatten_cons, List.length_append]
    rcases run_turns hI hb ha hr.2.2 with hend | ⟨t, hrun, htI, htb, hta, -, hlt⟩
    · exact hend.mono (Nat.le_add_right _ _)
    · have hless := hlt (hr.awaited s)
      rw [List.length_cons] at hle
      exact .of_run hrun (ih htI htb hta (fun r hr => hf r (List.mem_cons_of_mem _ hr)) (by omega))

end Sys2Proof.Machine

namespace Sys2Proof.Proofs

open Sys2Proof.Machine Sys2Proof.Safety

/-- Settles O60: every state of a call has at most twelve steps left, and each fair round takes one. -/
theorem callEndsUnderFairTurns : Obligations.CallEndsUnderFairTurns := by
  unfold Obligations.CallEndsUnderFairTurns
  intro s rounds rest hI hb ha hlen hf
  exact endsWithin_rounds hI hb ha hf (hlen ▸ stepsLeft_le s)

end Sys2Proof.Proofs
end

section
/-! PROOFS of a call under every schedule (43_block_assembler R214, R216). -/

namespace Sys2Proof.Machine

open Sys2Proof.Safety

/-- However its turns interleave, a call that reaches DONE has issued exactly its own requests (R216). -/
theorem completes_requests {s t : State} {n : Nat} (hI : Inv s) (hb : s.busy = true) (h : Completes s n t) :
    Counted t (allRequests s.key s.msg) := by
  obtain ⟨u, hu, hub, hkey, hmsg, hlast⟩ := completes_last_step hI hb h
  obtain ⟨-, -, hdone⟩ := h
  have hne : u.seq ≠ .done := fun hq => by cases hub.symm.trans (State.busy_of_seq hq)
  obtain ⟨hq, -, hcnt, hissues⟩ := step_enters_done hlast hne hdone
  obtain ⟨-, -, -, -, hcounted⟩ := hu.phase.clause hq
  rw [← hkey, ← hmsg, Counted, hcnt, hissues]
  exact hcounted

/-! ### An uninterrupted call (R279) -/

/-- The states that wait for an answer (R83). -/
def SeqState.waits : SeqState → Bool
  | .kwait | .iwait | .owait => true
  | _ => false

/-- Where a Core step leads a call that does not fail and does not end. -/
def SeqState.onward (oversized : Bool) : SeqState → Option SeqState
  | .check => some .norm
  | .norm => some (if oversized then .kwait else .xipad)
  | .kwait => some .xipad
  | .xipad => some .xopad
  | .xopad => some .inner
  | .inner => some .iwait
  | .iwait => some .outer
  | .outer => some .owait
  | _ => none

/-- Onward is from a BUSY state to another, which is no successor of itself. -/
theorem SeqState.onward_busy {oversized : Bool} {q q' : SeqState} (h : q.onward oversized = some q') :
    q.busy = true ∧ q'.busy = true ∧ q ∉ successors q := by
  cases q <;> cases h <;> cases oversized <;> decide

/-- The port holds a request, where `asked`, and else neither a request nor a FailR. -/
def PortIs (asked : Bool) (h : HPort) : Prop :=
  match asked with
  | true => ∃ p data, h = .req p data
  | false => (∀ p data, h ≠ .req p data) ∧ ∀ p, h ≠ .rsp p .failR

theorem portIs_empty : PortIs false .empty := ⟨nofun, nofun⟩

/-- A Core step that moves a call and does not fail it moves it onward, and asks where the next state waits. -/
theorem CoreMove.onward {s t : State} {q : SeqState} (h : CoreMove s t) (hmove : t.seq ≠ s.seq) (hok : t.seq ≠ .error)
    (hport : PortIs false s.hport) (hq : s.seq.onward (decide (64 < s.keyLen.toNat)) = some q) :
    t.seq = q ∧ PortIs q.waits t.hport := by
  cases h with
  | holds => exact absurd rfl hmove
  | checkBad | kwaitBad | iwaitBad | owaitBad => exact absurd rfl hok
  | owaitOk hs => rw [hs] at hq; cases hq
  | checkOk hs | xipad hs | xopad hs => rw [hs] at hq; cases hq; exact ⟨rfl, hport⟩
  | kwaitOk hs | iwaitOk hs => rw [hs] at hq; cases hq; exact ⟨rfl, portIs_empty⟩
  | inner hs | outer hs => rw [hs] at hq; cases hq; exact ⟨rfl, _, _, rfl⟩
  | normShort hs hk | normExact hs hk =>
    rw [hs, decide_eq_false (not_lt.mpr hk.le)] at hq; cases hq; exact ⟨rfl, hport⟩
  | normLong hs hk => rw [hs, decide_eq_true hk] at hq; cases hq; exact ⟨rfl, _, _, rfl⟩

/-- The call of `s` has come, without a FailR, to `q` at `u`, with these turns to come. -/
structure Underway (s : State) (q : SeqState) (asked : Bool) (rest : List Turn) (u : State) : Prop where
  inv : Inv u
  inputs : u.keyBuf = s.keyBuf ∧ u.msgBuf = s.msgBuf ∧ u.keyLen = s.keyLen ∧ u.msgLen = s.msgLen
  seq : u.seq = q
  port : PortIs asked u.hport
  agenda : u.agenda = rest

/-- A Core turn that nothing is asked for moves the call to a successor, and to ERROR only if a length is too large. -/
theorem Underway.core_step {s u : State} {q : SeqState} {rest : List Turn} (hfit : Fits s) (hq : q.busy = true)
    (h : Underway s q false (.core :: rest) u) :
    ∃ t, step u = .next t ∧ CoreMove u.takeTurn t ∧ t.seq ∈ successors q ∧ t.seq ≠ .error := by
  obtain ⟨hI, ⟨-, -, hkl, hml⟩, rfl, ⟨hreq, hfail⟩, ha⟩ := h
  have hn : u.nextTurn = .core := nextTurn_cons ha
  obtain ⟨t, ht, hsucc⟩ :=
    coreTurn_successor (inv_takeTurn hI).phase (by simpa [State.busy] using hq) (by simpa using hreq)
  have hstep := (step_core hn hI.phase.errcode_legal).trans ht
  refine ⟨t, hstep, coreTurn_move ht, by simpa using hsucc, fun herr => ?_⟩
  have hne : u.seq ≠ .error := fun he => by rw [he] at hq; cases hq
  obtain ⟨-, -, ⟨⟨-, hsize⟩, -⟩ | ⟨hhash, -⟩⟩ := step_enters_error hstep hne herr
  · rw [hkl, hml] at hsize
    exact hsize.elim (not_lt.mpr hfit.1) (not_lt.mpr hfit.2)
  · rcases hhash with ⟨-, hp⟩ | ⟨-, hp⟩ | ⟨-, hp⟩ <;> exact hfail _ hp

/-- After `n` steps of `s` its call has come to `q`. -/
def Reaches (s : State) (n : Nat) (q : SeqState) (asked : Bool) (rest : List Turn) : Prop :=
  ∃ u : State, core.run n s = .next u ∧ Underway s q asked rest u

/-- One more step of a run. -/
theorem run_snoc {n : Nat} {s u t : State} (hrun : core.run n s = .next u) (hstep : step u = .next t) :
    core.run (n + 1) s = .next t := (run_add hrun).trans (run_succ hstep)

/-- An unasked Core turn takes a call whose lengths fit onward, with its inputs. -/
theorem Reaches.onward {s : State} {n : Nat} {q q' : SeqState} {rest : List Turn} (hfit : Fits s)
    (h : Reaches s n q false (.core :: rest)) (hq : q.onward (decide (64 < s.keyLen.toNat)) = some q') :
    Reaches s (n + 1) q' q'.waits rest := by
  obtain ⟨u, hrun, hu⟩ := h
  obtain ⟨hbusy, hbusy', hmoves⟩ := SeqState.onward_busy hq
  obtain ⟨t, hstep, hmove, hsucc, hok⟩ := hu.core_step hfit hbusy
  have hne : t.seq ≠ u.takeTurn.seq := fun he => hmoves (by simpa [he, hu.seq] using hsucc)
  obtain ⟨hseq, hport⟩ := hmove.onward hne hok (by simpa using hu.port) (by simpa [hu.seq, hu.inputs.2.2.1] using hq)
  have hkeep := step_busy_inputs_eq ((State.busy_of_seq hu.seq).trans hbusy) hstep
    ((State.busy_of_seq hseq).trans hbusy')
  obtain ⟨hkb, hmb, hkl, hml⟩ := hu.inputs
  exact ⟨t, run_snoc hrun hstep, step_keeps_inv hu.inv hstep, by simp [hkeep, hkb, hmb, hkl, hml], hseq, hport,
    step_agenda_cons hu.agenda hstep⟩

/-- The HashUnit answers Ok, and the call stays where it is. -/
theorem Reaches.answered {s : State} {n : Nat} {q : SeqState} {rest : List Turn}
    (h : Reaches s n q true (.hashUnit true :: rest)) : Reaches s (n + 1) q false rest := by
  obtain ⟨u, hrun, hI, hin, hq, ⟨p, data, hp⟩, ha⟩ := h
  have hstep := step_hashUnit (nextTurn_cons ha) hI.phase.errcode_legal
  refine ⟨_, run_snoc hrun hstep, step_keeps_inv hI hstep, by simpa using hin, by simpa using hq, ?_,
    step_agenda_cons ha hstep⟩
  rw [State.hashAnswer_req true ((takeTurn_hport u).trans hp)]
  exact ⟨nofun, nofun⟩

/-- OWAIT's last step ends the call in DONE, with the tag of its key and message. -/
theorem Reaches.finished {s : State} {n : Nat} {rest : List Turn} (hfit : Fits s)
    (h : Reaches s n .owait false (.core :: rest)) :
    ∃ t : State, core.run (n + 1) s = .next t ∧ t.seq = .done ∧ t.tag = hmac s.key s.msg ∧ t.agenda = rest
      ∧ Wiped t := by
  obtain ⟨u, hrun, hu⟩ := h
  obtain ⟨t, hstep, -, hsucc, hok⟩ := hu.core_step hfit rfl
  have hdone : t.seq = .done := by simpa [successors, hok] using hsucc
  have hb : u.busy = true := State.busy_of_seq hu.seq
  have hlast : Completes u 1 t := ⟨run_succ hstep, fun m v hm hv => by
    obtain rfl : m = 0 := by omega
    cases hv
    exact hb, hdone⟩
  obtain ⟨hkb, hmb, hkl, hml⟩ := hu.inputs
  have htag := completes_tag hu.inv hb hlast
  simp only [State.key, State.msg, hkb, hmb, hkl, hml] at htag
  exact ⟨t, run_snoc hrun hstep, hdone, htag, step_agenda_cons hu.agenda hstep,
    step_ends_wiped hb hstep (State.busy_of_seq hdone)⟩

/-- From XIPAD on the turns are the same for every key. -/
theorem Reaches.fromXipad {s : State} {n : Nat} {rest : List Turn} (hfit : Fits s)
    (h : Reaches s n .xipad false
      ([.core, .core, .core, .hashUnit true, .core, .core, .hashUnit true, .core] ++ rest)) :
    ∃ t : State, core.run (n + 8) s = .next t ∧ t.seq = .done ∧ t.tag = hmac s.key s.msg ∧ t.agenda = rest
      ∧ Wiped t := by
  have hinner := (h.onward hfit rfl).onward hfit rfl
  have houter := (hinner.onward hfit rfl).answered.onward hfit rfl
  exact (houter.onward hfit rfl).answered.finished hfit

theorem reaches_check {s : State} (hI : Inv s) (hs : s.seq = .check) : Reaches s 0 .check false s.agenda := by
  obtain ⟨hport, -⟩ := hI.phase.clause hs
  exact ⟨s, rfl, hI, ⟨rfl, rfl, rfl, rfl⟩, hs, hport ▸ portIs_empty, rfl⟩

/-- The turns of an uninterrupted call take it to DONE. -/
theorem run_callTurns {s : State} {rest : List Turn} (hI : Inv s) (hs : s.seq = .check) (hfit : Fits s)
    (ha : s.agenda = callTurns (decide (64 < s.keyLen.toNat)) ++ rest) :
    ∃ t : State, core.run (callTurns (decide (64 < s.keyLen.toNat))).length s = .next t ∧ t.seq = .done
      ∧ t.tag = hmac s.key s.msg ∧ t.agenda = rest ∧ Wiped t := by
  have hcheck := ha ▸ reaches_check hI hs
  cases hk : decide (64 < s.keyLen.toNat) <;> rw [hk] at hcheck
  · exact ((hcheck.onward hfit rfl).onward hfit (by rw [hk]; rfl)).fromXipad hfit
  · exact (((hcheck.onward hfit rfl).onward hfit (by rw [hk]; rfl)).answered.onward hfit rfl).fromXipad hfit

end Sys2Proof.Machine

/-! ### The obligations of the invariant and the call -/

namespace Sys2Proof.Proofs

open Sys2Proof.Machine Sys2Proof.Safety

/-- Settles O55, by the moves of a step. -/
theorem invIsKept : Obligations.InvIsKept := by
  unfold Obligations.InvIsKept
  exact fun _ _ => step_keeps_inv

/-- Settles O58: the last step consumes the outer answer under the invariant, and the call has kept its inputs. -/
theorem tagUnderEverySchedule : Obligations.TagUnderEverySchedule := by
  unfold Obligations.TagUnderEverySchedule
  intro s t n hI hs h
  have hb : s.busy = true := State.busy_of_seq hs
  have hreq := completes_requests hI hb h
  exact ⟨completes_tag hI hb h, s.length_key ▸ hreq.hcnt_allRequests, hreq.2⟩

/-- Settles O54: the reset state is one that a reset leads to. -/
theorem invAtReset : Obligations.InvAtReset := by
  unfold Obligations.InvAtReset
  exact inv_resetHkb State.reset

/-- Settles O50: a running call's inputs are guarded from the Host, and no micro-operation but the last writes them. -/
theorem inputsAreFrozenWhileBusy : Obligations.InputsAreFrozenWhileBusy := by
  unfold Obligations.InputsAreFrozenWhileBusy
  exact fun _ _ hb hstep ht => step_busy_inputs_eq hb hstep ht

/-- Settles O56: only the platform's access outside the window is left without a step, and it is refused. -/
theorem noStopUnderTheInvariant : Obligations.NoStopUnderTheInvariant := by
  unfold Obligations.NoStopUnderTheInvariant
  intro s hI
  refine (step_next_or_outside hI).imp id fun ⟨addr, w, sz, data, hn, hout⟩ => ⟨addr, w, sz, data, hn, hout, ?_⟩
  rw [step_bus hn hI.phase.errcode_legal, busTurn_outside w sz data _ hout]

/-- Settles O59, turn by turn: CHECK to XIPAD, by KWAIT for an oversized key, and from there to DONE. -/
theorem uninterruptedCallReachesDone : Obligations.UninterruptedCallReachesDone := by
  unfold Obligations.UninterruptedCallReachesDone
  exact ⟨by decide, by decide, fun _ _ hI hs hfit ha => run_callTurns hI hs hfit ha⟩

/-- Settles O51: Fail, OWAIT and reset end a call, and each zeroes the call-scoped state. -/
theorem nothingIsRetained : Obligations.NothingIsRetained := by
  unfold Obligations.NothingIsRetained
  exact fun _ _ hb hstep ht => step_ends_wiped hb hstep ht

end Sys2Proof.Proofs
end

section
/-! PROOFS of the agents' turns (00_scope R16, 20_memory section 4, 70_reset_and_hazards section 1) and of what few
steps write: HCNT and the history, the tag, the sequencer state. -/

namespace Sys2Proof.Machine

open Sys2Proof.Safety

/-! ### The turns (R82, R106, R270) -/

/-- A reset sets every piece of HKB's state to its reset value. -/
theorem atReset_resetHkb (s : State) : AtReset s.resetHkb :=
  ⟨rfl, rfl, rfl, rfl, ⟨fun _ => rfl, fun _ => rfl, rfl, rfl, rfl, rfl, rfl, rfl⟩, rfl, rfl⟩

/-- STATUS is 0 where the four fields it shows are at their reset values (R32). -/
theorem status_eq_zero {s : State} (hq : s.seq = .idle) (hi : s.ign = false) (he : s.errcode = 0) (hc : s.hcnt = 0) :
    s.status = 0x00000000#32 := status_congr s State.reset hq hi he hc

/-- Below 0x010 stand the hardwired registers, and between them nothing (R22-R25, R60). -/
theorem target_below_ctrl {off : Nat} (h : off < 0x010) :
    target off ∈ [Target.id, .params, .keymax, .msgmax, .reserved] := by
  revert off; decide

/-- The hardwired registers read the same in every state. -/
theorem readWord_hardwired {off : Offset} (h : off.toNat < 0x010) (s t : State) : t.readWord off = s.readWord off := by
  have ht := target_below_ctrl h
  simp only [List.mem_cons, List.not_mem_nil, or_false] at ht
  rcases ht with ht | ht | ht | ht | ht <;> simp only [State.readWord, ht]

@[simp] theorem takeTurn_seqView (s : State) : s.takeTurn.seqView = s.seqView := by simp [State.seqView]

theorem coreTurn_of_instr {s : State} {i : Instr} (h : decode (.seq s.seqView) = .instr i) :
    coreTurn s = exec i s := by simp only [coreTurn, h]

theorem coreTurn_of_rejected {s : State} {why : Reject} (h : decode (.seq s.seqView) = .rejected why) :
    coreTurn s = .next s := by simp only [coreTurn, h]

/-- A turn that meets a reserved ERRCODE is refused, unless it is a reset (I10). -/
theorem step_reservedErrcode {s : State} (he : errReserved s.errcode = true) (hn : s.nextTurn ≠ .reset) :
    step s = .refused (.reservedErrcode s.errcode) := by
  have hl : ∀ turn : State → Result, legalTurn turn s.takeTurn = .refused (.reservedErrcode s.errcode) := fun turn => by
    simp only [legalTurn, takeTurn_errcode, if_pos he]
  rw [step]
  cases h : s.nextTurn with
  | reset => exact absurd h hn
  | host | bus | core | hashUnit => exact hl _

/-- What a step writes to ERRCODE is not reserved (R29). -/
theorem step_keeps_errcode_legal {s t : State} (he : errReserved s.errcode = false) (h : step s = .next t) :
    errReserved t.errcode = false := by
  rcases step_errcode_cases h with ht | ⟨-, -, ⟨-, ht⟩ | ⟨-, ht⟩⟩ | hr
  · rw [ht, he]
  · rw [ht]; rfl
  · rw [ht]; rfl
  · rw [step_restart_errcode h hr]; rfl

/-- While its request stands unanswered, any number of Core turns leaves a wait state as it is (R83). -/
theorem run_core_holds {s : State} {p : Purpose} {data : List Byte} {rest : List Turn} (k : Nat)
    (hw : s.seq = .kwait ∨ s.seq = .iwait ∨ s.seq = .owait) (hp : s.hport = .req p data)
    (he : errReserved s.errcode = false) (ha : s.agenda = List.replicate k .core ++ rest) :
    core.run k s = .next { s with agenda := rest } := by
  induction k generalizing s with
  | zero => subst ha; rfl
  | succ k ih =>
    rw [List.replicate_succ, List.cons_append] at ha
    have hstep : step s = .next { s with agenda := List.replicate k .core ++ rest } := by
      rw [step_core (nextTurn_cons ha) he, takeTurn_cons ha]
      exact coreTurn_of_req hw hp
    rw [run_succ hstep]
    exact ih hw hp he rfl

/-! ### HCNT, the history and the tag (R30, R42, R87) -/

/-- Only an accepted COMPUTE or CLEAR writes HCNT or the tag in a step of the Host's. -/
theorem HostMove.hcnt_tag_cases {s t : State} {i : Instr} (h : HostMove s i t) (hc : ∀ x, i ≠ .wr32 0x00010#17 x) :
    (t.hcnt = s.hcnt ∧ t.tag = s.tag) ∨ (s.busy = false ∧ ∃ rest, i = .compute rest ∨ i = .clear rest) := by
  cases h with
  | started _ hi hf =>
    obtain ⟨rest, hr⟩ := hi.resolve_right fun ⟨x, hx⟩ => hc x hx
    exact .inr ⟨hf, rest, .inl hr⟩
  | cleared _ hi hf =>
    obtain ⟨rest, hr⟩ := hi.resolve_right fun ⟨x, hx⟩ => hc x hx
    exact .inr ⟨hf, rest, .inr hr⟩
  | _ => exact .inl ⟨rfl, rfl⟩

/-- HCNT below 3 does not wrap when it goes up. -/
theorem toNat_hcnt_succ {c : BitVec 2} (h : c ≠ 3) : (c + 1).toNat = c.toNat + 1 := by
  revert c; decide

/-- A Core step keeps HCNT and the history, or finds an empty port and issues one request. -/
theorem CoreMove.hcnt_cases {s t : State} (h : CoreMove s t) :
    (t.issues = s.issues ∧ t.hcnt = s.hcnt)
      ∨ (s.hport = .empty ∧ t.hcnt.toNat = s.hcnt.toNat + 1
          ∧ ∃ p data, t.hport = .req p data ∧ t.issues = s.issues ++ [⟨p, data⟩]) := by
  cases h with
  | normLong _ _ _ hp hc | inner _ _ hp hc | outer _ hp hc => exact .inr ⟨hp, toNat_hcnt_succ hc, _, _, rfl, rfl⟩
  | _ => exact .inl ⟨rfl, rfl⟩

/-- Only OWAIT writes the tag in a Core step: the digest it consumes. -/
theorem CoreMove.tag_cases {s t : State} (h : CoreMove s t) :
    t.tag = s.tag ∨ (s.seq = .owait ∧ t.seq = .done ∧ s.hport = .rsp .outer (.ok t.tag)) := by
  cases h with
  | owaitOk hs d hp => exact .inr ⟨hs, rfl, hp⟩
  | _ => exact .inl rfl

theorem step_restart_hcnt_tag {s t : State} (h : step s = .next t) (hr : Restarts s) :
    t.hcnt = 0#2 ∧ t.tag = zeros Config.L ∧ t.issues = s.issues := by
  rcases step_restart h hr with rfl | rfl | rfl <;> exact ⟨rfl, rfl, takeTurn_issues s⟩

/-- A step keeps HCNT, the history and the tag, or restarts the machine, or is the Core's. -/
theorem step_hcnt_tag_cases {s t : State} (h : step s = .next t) :
    (t.hcnt = s.hcnt ∧ t.issues = s.issues ∧ t.tag = s.tag) ∨ Restarts s
      ∨ (s.nextTurn = .core ∧ CoreMove s.takeTurn t) := by
  cases step_move h with
  | host i hi hd _ _ _ hm =>
    obtain ⟨desc, data, rfl⟩ := hd
    obtain ⟨-, hissues, -, -⟩ := hm.around_eq
    rcases hm.hcnt_tag_cases (decodeBus_ne_wr32_ctrl desc data) with ⟨hcnt, htag⟩ | ⟨hb, rest, hr⟩
    · exact .inl (by simp [hcnt, hissues, htag])
    · exact .inr (.inl (.inr ⟨by simpa using hb, rest, by simpa [hi] using hr⟩))
  | core hn _ hm => exact .inr (.inr ⟨hn, hm⟩)
  | hashUnit ok => exact .inl (by simp)
  | reset hn => exact .inr (.inl (.inl hn))

end Sys2Proof.Machine

/-! ### The obligations of the agents and of the whole machine -/

namespace Sys2Proof.Proofs

open Sys2Proof.Machine Sys2Proof.Safety

/-- Settles O2: the reset turn is taken in every state, and the hardwired registers read none of the state. -/
theorem resetStepResetsEverything : Obligations.ResetStepResetsEverything := by
  unfold Obligations.ResetStepResetsEverything
  exact fun s hn => ⟨_, step_reset hn, atReset_resetHkb _, status_eq_zero rfl rfl rfl rfl, ⟨rfl, rfl, rfl, rfl⟩,
    fun _ => rfl, fun _ hoff => readWord_hardwired hoff s _⟩

/-- Settles O3: the turn's words are decoded and their instruction is run. -/
theorem stepRunsTheHostAccess : Obligations.StepRunsTheHostAccess := by
  unfold Obligations.StepRunsTheHostAccess
  intro s desc data i hn he hq hi
  cases hi
  exact step_host hn he hq

/-- Settles O4: taking the turn changes nothing that selects the micro-operation. -/
theorem stepRunsTheMicroOperation : Obligations.StepRunsTheMicroOperation := by
  unfold Obligations.StepRunsTheMicroOperation
  intro s hn he
  rw [step_core hn he, ← takeTurn_seqView]
  exact ⟨fun _ => coreTurn_of_instr, fun _ => coreTurn_of_rejected⟩

/-- Settles O39: every turn but a reset checks ERRCODE first, and only 0, 1 and 2 are written to it. -/
theorem reservedErrcodeIsRefused : Obligations.ReservedErrcodeIsRefused := by
  unfold Obligations.ReservedErrcodeIsRefused
  exact ⟨fun _ => step_reservedErrcode, fun _ _ => step_keeps_errcode_legal⟩

/-- Settles O40: the HashUnit's turn is its answer, which looks at the port alone. -/
theorem hashUnitAnswersARequest : Obligations.HashUnitAnswersARequest := by
  unfold Obligations.HashUnitAnswersARequest
  intro s ok hn he
  rw [step_hashUnit hn he]
  refine ⟨fun p data hp => congrArg _ (State.hashAnswer_req ok ((takeTurn_hport s).trans hp)), fun hnone => ?_⟩
  exact congrArg _ (State.hashAnswer_idle ok (by simpa using hnone))

/-- Settles O41, by induction on the number of turns. -/
theorem coreHoldsWithoutAnAnswer : Obligations.CoreHoldsWithoutAnAnswer := by
  unfold Obligations.CoreHoldsWithoutAnAnswer
  exact fun _ k _ _ _ hw hp he ha => run_core_holds k hw hp he ha

/-- Settles O48: besides the restarts, only the Core's issuing steps write HCNT. -/
theorem hcntCountsTheRequests : Obligations.HcntCountsTheRequests := by
  unfold Obligations.HcntCountsTheRequests
  intro s t h
  refine ⟨fun hr => (step_restart_hcnt_tag h hr).1, ?_⟩
  rcases step_hcnt_tag_cases h with ⟨hcnt, hissues, -⟩ | hr | ⟨hn, hm⟩
  · exact .inl ⟨hissues, hcnt⟩
  · obtain ⟨hcnt, -, hissues⟩ := step_restart_hcnt_tag h hr
    exact .inr (.inl ⟨hissues, hcnt, hr⟩)
  · exact hm.hcnt_cases.imp (by simp) fun hissue => .inr ⟨hn, by simpa using hissue⟩

/-- Settles O49: besides the restarts, only OWAIT writes the tag. -/
theorem tagIsWrittenByFewSteps : Obligations.TagIsWrittenByFewSteps := by
  unfold Obligations.TagIsWrittenByFewSteps
  intro s t h
  refine ⟨fun hr => (step_restart_hcnt_tag h hr).2.1, fun hne => ?_⟩
  rcases step_hcnt_tag_cases h with ⟨-, -, htag⟩ | hr | ⟨hn, hm⟩
  · exact absurd htag hne
  · exact .inr ⟨(step_restart_hcnt_tag h hr).2.1, hr⟩
  · have hm' := hm.tag_cases
    simp only [takeTurn_tag, takeTurn_seq, takeTurn_hport] at hm'
    exact .inl ⟨hn, hm'.resolve_left hne⟩

/-- Settles O52: the sequencer state after a step, where it is not kept. -/
theorem sequencerFollowsTheTable : Obligations.SequencerFollowsTheTable := by
  unfold Obligations.SequencerFollowsTheTable
  exact fun _ _ h hne => (step_seq_cases h).resolve_left hne

end Sys2Proof.Proofs
end

section
/-! PROOFS of the host interface (spec file 41_host_interface): what the accesses and the commands do, what they leave
alone, and what the Host can see of the rest. -/

namespace Sys2Proof.Machine

open Sys2Proof.Safety

/-- IDLE, DONE and ERROR are not BUSY (R27). -/
theorem busy_of_free {s : State} (h : s.seq = .idle ∨ s.seq = .done ∨ s.seq = .error) : s.busy = false := by
  rcases h with h | h | h <;> exact State.busy_of_seq h

/-! ### The word read by its offset (R136) -/

/-- The offsets that a target stands for (R60). -/
def Target.Names (off : Nat) : Target → Prop
  | .id => off = 0x000
  | .params => off = 0x004
  | .keymax => off = 0x008
  | .msgmax => off = 0x00C
  | .ctrl => off = 0x010
  | .status => off = 0x014
  | .keyLen => off = 0x018
  | .msgLen => off = 0x01C
  | .tag j => 0x040 ≤ off ∧ off ≤ 0x07F ∧ j = (off - 0x040) / 4
  | .keyWindow _ => 0x01000 ≤ off
  | .msgWindow _ => 0x10000 ≤ off
  | .reserved => 0x01C < off ∧ ¬(0x040 ≤ off ∧ off ≤ 0x07F) ∨ off % 4 ≠ 0

theorem names_ite {off : Nat} {p : Prop} [Decidable p] {a b : Target} (ha : p → a.Names off) (hb : ¬p → b.Names off) :
    (if p then a else b).Names off := by
  split
  · next h => exact ha h
  · next h => exact hb h

/-- The map of the host space, read backwards. -/
theorem target_names (off : Nat) : (target off).Names off := by
  refine names_ite id fun h0 => names_ite id fun h4 => names_ite id fun h8 => names_ite id fun hC =>
    names_ite id fun h10 => names_ite id fun h14 => names_ite id fun h18 => names_ite id fun h1C =>
    names_ite (fun h => ⟨h.1, h.2, rfl⟩) fun htag => names_ite And.left fun _ => names_ite And.left fun _ => ?_
  simp only [Target.Names]
  omega

/-- TAG0 to TAG7 are the tag's bytes from the offset's own index on (R31). -/
theorem tagWord_of_lt (s : State) {off : Nat} (hlo : 0x040 ≤ off) (hhi : off < 0x060) (ha : off % 4 = 0) :
    s.tagWord ((off - 0x040) / 4) =
      be4 (s.tag.toList.getD (off - 0x040) 0) (s.tag.toList.getD (off - 0x040 + 1) 0)
        (s.tag.toList.getD (off - 0x040 + 2) 0) (s.tag.toList.getD (off - 0x040 + 3) 0) := by
  have hj : 4 * ((off - 0x040) / 4) = off - 0x040 := by omega
  rw [State.tagWord, if_pos (show (off - 0x040) / 4 < Config.L / 4 by simp only [Config.L]; omega), hj]

/-- TAG8 to TAG15 read 0 (R31). -/
theorem tagWord_of_ge (s : State) {off : Nat} (h : 0x060 ≤ off) : s.tagWord ((off - 0x040) / 4) = 0 :=
  if_neg (by simp only [Config.L]; omega)

/-! ### Writes outside the windows (R70, R142) -/

theorem target_ne_keyWindow {off : Offset} (h : ¬InWindow off) (o : Nat) : target off.toNat ≠ .keyWindow o :=
  fun ht => h (inWindow_of_keyWindow ht)

theorem target_ne_msgWindow {off : Offset} (h : ¬InWindow off) (o : Nat) : target off.toNat ≠ .msgWindow o :=
  fun ht => h (inWindow_of_msgWindow ht)

/-- Outside the windows a narrow write takes nothing. -/
theorem writeNarrow_outside {off : Offset} (n : Nat) (data : Word) (s : State) (h : ¬InWindow off) :
    s.writeNarrow n off data = s := by
  rcases State.writeNarrow_cases n off data s with he | ⟨o, ho, -⟩ | ⟨o, ho, -⟩
  · exact he
  · exact absurd ho (target_ne_keyWindow h o)
  · exact absurd ho (target_ne_msgWindow h o)

/-- Outside the windows and off CTRL, KEY_LEN and MSG_LEN a word write takes nothing. -/
theorem writeWord_outside {off : Offset} (data : Word) (s : State) (h : ¬InWindow off) (hctrl : off.toNat ≠ 0x010)
    (hkey : off.toNat ≠ 0x018) (hmsg : off.toNat ≠ 0x01C) : s.writeWord off data = s := by
  unfold State.writeWord
  split
  · next ht => exact absurd (congrArg BitVec.toNat (target_eq_ctrl ht)) hctrl
  · next ht => exact absurd (congrArg BitVec.toNat (target_eq_keyLen ht)) hkey
  · next ht => exact absurd (congrArg BitVec.toNat (target_eq_msgLen ht)) hmsg
  · next o ht => exact absurd ht (target_ne_keyWindow h o)
  · next o ht => exact absurd ht (target_ne_msgWindow h o)
  all_goals rfl

/-! ### A wide window write by bytes (R67) -/

/-- The four bytes of a word, each as the byte that a WR8 takes of the shifted word. -/
theorem unbe_four (v : Word) : unbe 4 v = unbe 1 (v >>> 24) ++ unbe 1 (v >>> 16) ++ unbe 1 (v >>> 8) ++ unbe 1 v := by
  have hbyte : ∀ k, unbe 1 (v >>> k) = [v.extractLsb' k 8] := fun k => by
    refine congrArg (List.cons · []) (BitVec.eq_of_getLsbD_eq fun i hi => ?_)
    simp [BitVec.getLsbD_extractLsb']
  rw [hbyte, hbyte, hbyte]
  rfl

/-- A run of bytes may be written in two parts. -/
theorem Memory.writeBytes_append (bound : Nat) (m : Memory) (o : Nat) (xs ys : List Byte) :
    m.writeBytes bound o (xs ++ ys) = (m.writeBytes bound o xs).writeBytes bound (o + xs.length) ys := by
  induction xs generalizing m o with
  | nil => rfl
  | cons x xs ih =>
    rw [List.cons_append, Memory.writeBytes_cons, Memory.writeBytes_cons, ih, List.length_cons,
      show o + 1 + xs.length = o + (xs.length + 1) by omega]

/-- Two writes of adjacent runs of bytes do what one write of both does. -/
def JoinsBytes (write : Nat → List Byte → State → State) : Prop :=
  ∀ (o k : Nat) (xs ys : List Byte) (s : State), xs.length = k →
    State.replyWrite .okay (write (o + k) ys (State.replyWrite .okay (write o xs s)))
      = State.replyWrite .okay (write o (xs ++ ys) s)

/-- Two guarded writes in a row, met in one state, both take effect or are both lost. -/
theorem replyWrite_guarded_join {f g both : State → State} {s : State} (hb : (f s).busy = s.busy)
    (hj : State.replyWrite .okay (g (State.replyWrite .okay (f s))) = State.replyWrite .okay (both s)) :
    State.replyWrite .okay (State.guarded g (State.replyWrite .okay (s.guarded f)))
      = State.replyWrite .okay (s.guarded both) := by
  cases h : s.busy
  · have hb' : (State.replyWrite .okay (f s)).busy = false := hb.trans h
    rw [State.guarded_free f s h, State.guarded_free both s h, State.guarded_free g _ hb', hj]
  · rw [replyWrite_guarded_busy f h, replyWrite_guarded_busy both h]
    exact replyWrite_guarded_busy (s := s.ignored) g h

theorem joinsBytes_writeKeyWindow : JoinsBytes State.writeKeyWindow := by
  rintro o k xs ys s rfl
  exact replyWrite_guarded_join rfl (by simp only [Memory.writeBytes_append]; rfl)

theorem joinsBytes_writeMsgWindow : JoinsBytes State.writeMsgWindow := by
  rintro o k xs ys s rfl
  exact replyWrite_guarded_join rfl (by simp only [Memory.writeBytes_append]; rfl)

/-- An aligned word of a window lies in it whole: its four bytes are adjacent bytes of the window's buffer. -/
theorem wordOfWindow {off : Offset} (hw : InWindow off) (ha : off.toNat % 4 = 0) :
    ∃ write o, JoinsBytes write ∧ ∀ (off' : Offset) (k : Nat), k < 4 → off'.toNat = off.toNat + k →
      InWindow off' ∧ ∀ n data s, State.writeNarrow n off' data s = write (o + k) (unbe n data) s := by
  rcases hw with ⟨hlo, hhi⟩ | ⟨hlo, hhi⟩
  · refine ⟨_, off.toNat - 0x01000, joinsBytes_writeKeyWindow, fun off' k hk he => ?_⟩
    have hlo' : 0x01000 ≤ off'.toNat := by omega
    have hhi' : off'.toNat ≤ 0x01FFF := by omega
    refine ⟨.inl ⟨hlo', hhi'⟩, fun n data s => ?_⟩
    rw [writeNarrow_keyWindow n data s hlo' hhi', show off'.toNat - 0x01000 = off.toNat - 0x01000 + k by omega]
  · refine ⟨_, off.toNat - 0x10000, joinsBytes_writeMsgWindow, fun off' k hk he => ?_⟩
    have hlo' : 0x10000 ≤ off'.toNat := by omega
    have hhi' : off'.toNat ≤ 0x1FFFF := by omega
    refine ⟨.inr ⟨hlo', hhi'⟩, fun n data s => ?_⟩
    rw [writeNarrow_msgWindow n data s hlo', show off'.toNat - 0x10000 = off.toNat - 0x10000 + k by omega]

/-- The offset of a byte of an aligned word does not wrap. -/
theorem toNat_add_byte {off : Offset} (ha : off.toNat % 4 = 0) {k : Nat} (hk : k < 4) :
    (off + BitVec.ofNat 17 k).toNat = off.toNat + k := by
  have := off.isLt
  rw [BitVec.toNat_add, BitVec.toNat_ofNat]
  omega

/-! ### The frame of the writes (R138-R158) -/

end Sys2Proof.Machine

namespace Sys2Proof.Safety

open Sys2Proof.Machine

/-- An instruction is a write of one size, at one offset, of one word. -/
theorem IsWrite.unique {n n' : Nat} {off off' : Offset} {data data' : Word} {i : Instr} (h : IsWrite n off data i)
    (h' : IsWrite n' off' data' i) : n = n' ∧ off = off' ∧ data = data' := by
  rcases h with ⟨rfl, rfl⟩ | ⟨rfl, rfl⟩ | ⟨rfl, rfl⟩ <;> rcases h' with ⟨rfl, h'⟩ | ⟨rfl, h'⟩ | ⟨rfl, h'⟩ <;>
    cases h' <;> exact ⟨rfl, rfl, rfl⟩

theorem isWrite_wr32 (off : Offset) (data : Word) : IsWrite 4 off data (.wr32 off data) := .inr (.inr ⟨rfl, rfl⟩)

/-- Off CTRL a guarded write is at a window or at a length (R158). -/
theorem IsWrite.guarded_offset {n : Nat} {off : Offset} {data : Word} {i : Instr} (h : IsWrite n off data i)
    (hctrl : n = 4 → off.toNat ≠ 0x010) (hg : Guarded i) :
    InWindow off ∨ off.toNat = 0x018 ∨ off.toNat = 0x01C := by
  rcases h with ⟨rfl, rfl⟩ | ⟨rfl, rfl⟩ | ⟨rfl, rfl⟩
  · exact .inl hg
  · exact .inl hg.1
  · rcases hg with ⟨hw, -⟩ | rfl | rfl | ⟨rfl, -⟩
    · exact .inl hw
    · exact .inr (.inl rfl)
    · exact .inr (.inr rfl)
    · exact absurd rfl (hctrl rfl)

theorem IsWrite.fromHost {n : Nat} {off : Offset} {data : Word} {i : Instr} (h : IsWrite n off data i) :
    FromHost i := by
  rcases h with ⟨-, rfl⟩ | ⟨-, rfl⟩ | ⟨-, rfl⟩ <;> trivial

end Sys2Proof.Safety

namespace Sys2Proof.Machine

open Sys2Proof.Safety

/-- What a write off CTRL leaves alone. -/
structure WriteFrame (n : Nat) (off : Offset) (s t : State) : Prop where
  rest : t = { s with ign := t.ign, keyLen := t.keyLen, msgLen := t.msgLen, keyBuf := t.keyBuf, msgBuf := t.msgBuf,
                      reply := t.reply }
  keyLen : off.toNat ≠ 0x018 → t.keyLen = s.keyLen
  msgLen : off.toNat ≠ 0x01C → t.msgLen = s.msgLen
  ign : ¬InWindow off → off.toNat ≠ 0x018 → off.toNat ≠ 0x01C → t.ign = s.ign
  keyBuf : ∀ a, (∀ o, target off.toNat = .keyWindow o → a < o ∨ o + n ≤ a) → t.keyBuf.read a = s.keyBuf.read a
  msgBuf : ∀ a, (∀ o, target off.toNat = .msgWindow o → a < o ∨ o + n ≤ a) → t.msgBuf.read a = s.msgBuf.read a

theorem HostMove.writeFrame {n : Nat} {off : Offset} {data : Word} {i : Instr} {s t : State}
    (hi : IsWrite n off data i) (hctrl : n = 4 → off.toNat ≠ 0x010) (h : HostMove s i t) : WriteFrame n off s t := by
  cases h with
  | replies => exact ⟨rfl, fun _ => rfl, fun _ => rfl, fun _ _ _ => rfl, fun _ _ => rfl, fun _ _ => rfl⟩
  | lost _ hg =>
    refine ⟨rfl, fun _ => rfl, fun _ => rfl, fun hw hk hm => ?_, fun _ _ => rfl, fun _ _ => rfl⟩
    rcases hi.guarded_offset hctrl hg with h | h | h
    · exact absurd h hw
    · exact absurd h hk
    · exact absurd h hm
  | keyBytes n' off' data' _ o hi' ho =>
    obtain ⟨rfl, rfl, rfl⟩ := hi.unique hi'
    refine ⟨rfl, fun _ => rfl, fun _ => rfl, fun _ _ _ => rfl, fun a ha => ?_, fun _ _ => rfl⟩
    exact Memory.read_writeBytes_outside _ _ _ _ (by simpa using ha o ho)
  | msgBytes n' off' data' _ o hi' ho =>
    obtain ⟨rfl, rfl, rfl⟩ := hi.unique hi'
    refine ⟨rfl, fun _ => rfl, fun _ => rfl, fun _ _ _ => rfl, fun _ _ => rfl, fun a ha => ?_⟩
    exact Memory.read_writeBytes_outside _ _ _ _ (by simpa using ha o ho)
  | keyLength x _ hx =>
    have hx' : i = .wr32 0x00018#17 x := by
      rcases hi with ⟨-, rfl⟩ | ⟨-, rfl⟩ | ⟨-, rfl⟩ <;> simp_all
    obtain ⟨-, rfl, -⟩ := hi.unique (hx' ▸ isWrite_wr32 _ _)
    exact ⟨rfl, fun h => absurd rfl h, fun _ => rfl, fun _ _ _ => rfl, fun _ _ => rfl, fun _ _ => rfl⟩
  | msgLength x _ hx =>
    have hx' : i = .wr32 0x0001C#17 x := by
      rcases hi with ⟨-, rfl⟩ | ⟨-, rfl⟩ | ⟨-, rfl⟩ <;> simp_all
    obtain ⟨-, rfl, -⟩ := hi.unique (hx' ▸ isWrite_wr32 _ _)
    exact ⟨rfl, fun _ => rfl, fun h => absurd rfl h, fun _ _ _ => rfl, fun _ _ => rfl, fun _ _ => rfl⟩
  | started _ hx | cleared _ hx | reserved _ hx =>
    have hx' : ∃ x, i = .wr32 0x00010#17 x := by
      rcases hi with ⟨-, rfl⟩ | ⟨-, rfl⟩ | ⟨-, rfl⟩ <;> simp_all
    obtain ⟨x, rfl⟩ := hx'
    obtain ⟨rfl, rfl, -⟩ := hi.unique (isWrite_wr32 _ _)
    exact absurd rfl (hctrl rfl)

/-! ### What the Host can see (R49, R66, R249) -/

/-- Two states that look alike to the Host are both BUSY or neither is. -/
theorem sameVisible_busy {s u : State} (h : SameVisible s u) : s.busy = u.busy := congrArg SeqState.busy h.1

/-- The word read depends on what the Host can see alone. -/
theorem readWord_congr {s u : State} (h : SameVisible s u) (off : Offset) : s.readWord off = u.readWord off := by
  obtain ⟨hq, hi, he, hc, hk, hm, ht⟩ := h
  simp only [State.readWord, State.tagWord, status_congr s u hq hi he hc, hk, hm, ht]

/-- An effect that takes states that look alike to states that look alike. -/
def Visibly (effect : State → State) : Prop := ∀ s u, SameVisible s u → SameVisible (effect s) (effect u)

theorem visibly_id : Visibly id := fun _ _ h => h

theorem visibly_guarded {effect : State → State} (he : Visibly effect) : Visibly (State.guarded effect) := by
  intro s u h
  rcases State.guarded_cases effect s with ⟨hb, hs⟩ | ⟨hb, hs⟩ <;> rw [hs]
  · rw [State.guarded_busy effect u ((sameVisible_busy h).symm.trans hb)]
    exact ⟨h.1, rfl, h.2.2⟩
  · rw [State.guarded_free effect u ((sameVisible_busy h).symm.trans hb)]
    exact he s u h

theorem visibly_startCall : Visibly State.startCall := by
  rintro s u ⟨-, hi, -, -, hk, hm, -⟩
  exact ⟨rfl, hi, rfl, rfl, hk, hm, rfl⟩

theorem visibly_clearAll : Visibly State.clearAll := fun _ _ _ => ⟨rfl, rfl, rfl, rfl, rfl, rfl, rfl⟩

theorem visibly_reservedCommand : Visibly State.reservedCommand := fun _ _ h => ⟨h.1, rfl, h.2.2⟩

theorem visibly_command (data : Word) : Visibly (State.command data) := by
  unfold State.command
  intro s u h
  split_ifs
  · exact h
  · exact visibly_guarded visibly_startCall s u h
  · exact visibly_guarded visibly_clearAll s u h
  · exact visibly_reservedCommand s u h

theorem visibly_writeKeyLen (data : Word) : Visibly (State.writeKeyLen data) :=
  visibly_guarded fun _ _ ⟨hq, hi, he, hc, _, hm, ht⟩ => ⟨hq, hi, he, hc, rfl, hm, ht⟩

theorem visibly_writeMsgLen (data : Word) : Visibly (State.writeMsgLen data) :=
  visibly_guarded fun _ _ ⟨hq, hi, he, hc, hk, _, ht⟩ => ⟨hq, hi, he, hc, hk, rfl, ht⟩

theorem visibly_writeKeyWindow (o : Nat) (bytes : List Byte) : Visibly (State.writeKeyWindow o bytes) :=
  visibly_guarded fun _ _ h => h

theorem visibly_writeMsgWindow (o : Nat) (bytes : List Byte) : Visibly (State.writeMsgWindow o bytes) :=
  visibly_guarded fun _ _ h => h

theorem visibly_writeNarrow (n : Nat) (off : Offset) (data : Word) : Visibly (State.writeNarrow n off data) := by
  intro s u h
  unfold State.writeNarrow
  split
  · exact visibly_writeKeyWindow _ _ s u h
  · exact visibly_writeMsgWindow _ _ s u h
  all_goals exact h

theorem visibly_writeWord (off : Offset) (data : Word) : Visibly (State.writeWord off data) := by
  intro s u h
  unfold State.writeWord
  split
  · exact visibly_command data s u h
  · exact visibly_writeKeyLen data s u h
  · exact visibly_writeMsgLen data s u h
  · exact visibly_writeKeyWindow _ _ s u h
  · exact visibly_writeMsgWindow _ _ s u h
  all_goals exact h

/-- Two outcomes that look alike to the Host: the same reply, and states that look alike. -/
def LookAlike (r r' : Result) : Prop :=
  ∃ t t', r = .next t ∧ r' = .next t' ∧ t'.reply = t.reply ∧ SameVisible t t'

theorem lookAlike_busRead {s u : State} {value : State → Word} (n : Nat) (off : Offset) (h : SameVisible s u)
    (hv : value s = value u) : LookAlike (busRead n off value s) (busRead n off value u) := by
  unfold busRead
  split
  · exact ⟨_, _, rfl, rfl, by simp [hv], h⟩
  · exact ⟨_, _, rfl, rfl, rfl, h⟩

theorem lookAlike_busWrite {s u : State} {effect : State → State} (n : Nat) (off : Offset) (h : SameVisible s u)
    (he : Visibly effect) : LookAlike (busWrite n off effect s) (busWrite n off effect u) := by
  unfold busWrite
  split
  · exact ⟨_, _, rfl, rfl, rfl, he s u h⟩
  · exact ⟨_, _, rfl, rfl, rfl, h⟩

theorem lookAlike_replyWrite {s u : State} {effect : State → State} (h : SameVisible s u) (he : Visibly effect) :
    LookAlike (.next ((effect s).replyWrite .okay)) (.next ((effect u).replyWrite .okay)) :=
  ⟨_, _, rfl, rfl, rfl, he s u h⟩

/-- No instruction of the Host's shows it more than it saw. -/
theorem exec_lookAlike {i : Instr} {s u : State} (hi : FromHost i) (h : SameVisible s u) :
    LookAlike (exec i s) (exec i u) := by
  cases i <;> simp only [FromHost] at hi
  case rd8 off => exact lookAlike_busRead 1 off (value := fun _ => 0) h rfl
  case rd16 off => exact lookAlike_busRead 2 off (value := fun _ => 0) h rfl
  case rd32 off => exact lookAlike_busRead _ _ h (readWord_congr h off)
  case wr8 | wr16 => exact lookAlike_busWrite _ _ h (visibly_writeNarrow _ _ _)
  case wr32 => exact lookAlike_busWrite _ _ h (visibly_writeWord _ _)
  case wr32KeyLen => exact lookAlike_replyWrite h (visibly_writeKeyLen _)
  case wr32MsgLen => exact lookAlike_replyWrite h (visibly_writeMsgLen _)
  case busIllegal w off data => rw [exec_busIllegal, exec_busIllegal]; exact ⟨_, _, rfl, rfl, rfl, h⟩
  case nop => exact lookAlike_replyWrite h visibly_id
  case compute => exact lookAlike_replyWrite h (visibly_guarded visibly_startCall)
  case clear => exact lookAlike_replyWrite h (visibly_guarded visibly_clearAll)
  case rsvd => exact lookAlike_replyWrite h visibly_reservedCommand

end Sys2Proof.Machine

/-! ### The obligations of the host interface -/

namespace Sys2Proof.Proofs

open Sys2Proof.Machine Sys2Proof.Safety

/-- Settles O9: both sides are the write at the row's own offset. -/
theorem wordWriteAgreesWithItsRow : Obligations.WordWriteAgreesWithItsRow := by
  unfold Obligations.WordWriteAgreesWithItsRow
  exact fun s data => ⟨(exec_decodeWr32 0x00010#17 data s).symm, rfl, rfl⟩

/-- Settles O13, by the offset's target. -/
theorem wordReadByTheMap : Obligations.WordReadByTheMap := by
  unfold Obligations.WordReadByTheMap
  intro off s ha
  have hok : accessOk 4 off.toNat = true := (accessOk_iff 4 _).mpr ⟨ha, fun _ => rfl⟩
  refine (busRead_ok (State.readWord off) s hok).trans
    (congrArg (fun v => Host.Outcome.next (s.replyRead .okay v)) ?_)
  have hoff := target_names off.toNat
  cases ht : target off.toNat <;> rw [ht] at hoff <;> simp only [Target.Names] at hoff <;>
    simp only [State.readWord, ht]
  case id | params | keymax | msgmax | ctrl | status | keyLen | msgLen => rw [hoff]; rfl
  case tag j =>
    obtain ⟨hlo, hhi, rfl⟩ := hoff
    repeat rw [if_neg (by omega)]
    by_cases htag : off.toNat < 0x060
    · rw [if_pos ⟨hlo, htag⟩, tagWord_of_lt s hlo htag ha]
    · rw [if_neg (by omega), tagWord_of_ge s (not_lt.mp htag)]; rfl
  case reserved | keyWindow | msgWindow =>
    repeat rw [if_neg (by omega)]
    rfl

/-- Settles O17: the four bytes are adjacent in the window's buffer, and each write joins its byte to those before. -/
theorem wideWriteIsFourByteWrites : Obligations.WideWriteIsFourByteWrites := by
  unfold Obligations.WideWriteIsFourByteWrites
  intro off data s hw ha
  obtain ⟨write, o, hjoin, hbyte⟩ := wordOfWindow hw ha
  have hwr8 : ∀ (k : Nat) (x : Word) (t : State), k < 4 →
      exec (.wr8 (off + BitVec.ofNat 17 k) x) t = .next (State.replyWrite .okay (write (o + k) (unbe 1 x) t)) := by
    intro k x t hk
    obtain ⟨hin, hnarrow⟩ := hbyte _ k hk (toNat_add_byte ha hk)
    rw [exec_windowWrite t (.inl ⟨rfl, rfl⟩) hin (Nat.mod_one _), hnarrow]
  have hfirst : exec (.wr8 off (data >>> 24)) s
      = .next (State.replyWrite .okay (write o (unbe 1 (data >>> 24)) s)) := by
    simpa using hwr8 0 (data >>> 24) s (by decide)
  refine ⟨_, _, _, _, hfirst, hwr8 1 _ _ (by decide), hwr8 2 _ _ (by decide), hwr8 3 _ _ (by decide), ?_⟩
  rw [exec_windowWrite s (isWrite_wr32 off data) hw ha, (hbyte off 0 (by decide) rfl).2, Nat.add_zero, unbe_four,
    hjoin o 1 _ _ s (length_unbe _ _), hjoin o 2 _ _ s (by simp), hjoin o 3 _ _ s (by simp)]

/-- Settles O18: a length write is guarded. -/
theorem lengthWriteSetsTheLength : Obligations.LengthWriteSetsTheLength := by
  unfold Obligations.LengthWriteSetsTheLength
  refine fun data s => ⟨fun hb => ?_, fun hb => ⟨exec_guarded_busy (by trivial) hb, exec_guarded_busy (by trivial) hb⟩⟩
  simp only [exec, execWr32KeyLen, execWr32MsgLen, State.writeKeyLen, State.writeMsgLen, State.guarded_free _ s hb]
  exact ⟨rfl, rfl⟩

/-- Settles O19: the access check passes, and the offset takes nothing. -/
theorem readOnlyAndReservedWritesDoNothing : Obligations.ReadOnlyAndReservedWritesDoNothing := by
  unfold Obligations.ReadOnlyAndReservedWritesDoNothing
  intro n off data i s hi ha hn hw hctrl hkey hmsg
  have hok : accessOk n off.toNat = true := (accessOk_iff n _).mpr ⟨ha, hn⟩
  rcases hi with ⟨rfl, rfl⟩ | ⟨rfl, rfl⟩ | ⟨rfl, rfl⟩
  · exact (busWrite_ok _ s hok).trans (by rw [writeNarrow_outside _ _ _ hw]; rfl)
  · exact (busWrite_ok _ s hok).trans (by rw [writeNarrow_outside _ _ _ hw]; rfl)
  · exact (busWrite_ok _ s hok).trans (by rw [writeWord_outside _ _ hw hctrl hkey hmsg]; rfl)

/-- Settles O21: in these states COMPUTE is accepted. -/
theorem computeStartsACall : Obligations.ComputeStartsACall := by
  unfold Obligations.ComputeStartsACall
  exact fun rest s hs => exec_compute_free (busy_of_free hs)

/-- Settles O22: in these states CLEAR is accepted, and the invariant has the port empty there. -/
theorem clearRestoresReset : Obligations.ClearRestoresReset := by
  unfold Obligations.ClearRestoresReset
  intro rest s hs
  have hb := busy_of_free hs
  refine ⟨_, exec_clear_free hb, status_eq_zero rfl rfl rfl rfl, s.wiped_scrub, rfl, rfl, rfl, rfl, rfl, rfl,
    fun hI => ?_⟩
  exact ⟨rfl, rfl, rfl, rfl, s.wiped_scrub, rfl, (hI.phase.free hb).1⟩

/-- Settles O23: neither command looks at the state. -/
theorem nopAndReservedCommands : Obligations.NopAndReservedCommands := by
  unfold Obligations.NopAndReservedCommands
  exact fun _ _ _ => ⟨rfl, rfl⟩

/-- Settles O42: a read replies, and BUS.ILLEGAL answers SLVERR. -/
theorem hostReadsChangeNothing : Obligations.HostReadsChangeNothing := by
  unfold Obligations.HostReadsChangeNothing
  rintro i s t (⟨off, hi⟩ | ⟨w, off, data, rfl⟩) h
  · obtain ⟨r, v, rfl⟩ : ∃ r v, t = s.replyRead r v := by
      rcases hi with rfl | rfl | rfl <;> simp only [exec, execRd8, execRd16, execRd32] at h <;> exact busRead_next h
    rfl
  · rw [exec_busIllegal] at h
    cases h
    rfl

/-- Settles O43: a write makes one of the Host's moves. -/
theorem hostWriteFrame : Obligations.HostWriteFrame := by
  unfold Obligations.HostWriteFrame
  intro n off data i s t hi hctrl h
  obtain ⟨t', ht', hm⟩ := exec_hostMove s hi.fromHost
  cases h.symm.trans ht'
  obtain ⟨hrest, hkeyLen, hmsgLen, hign, hkeyBuf, hmsgBuf⟩ := hm.writeFrame hi hctrl
  exact ⟨hrest, hkeyLen, hmsgLen, hign, hkeyBuf, hmsgBuf⟩

/-- Settles O44, by the command. -/
theorem commandFrame : Obligations.CommandFrame := by
  unfold Obligations.CommandFrame
  rintro i s t ⟨rest, hi⟩ h
  have hfrom : FromHost i := by rcases hi with rfl | rfl | rfl | ⟨cmd, rfl⟩ <;> trivial
  obtain ⟨t', ht', hm⟩ := exec_hostMove s hfrom
  cases h.symm.trans ht'
  obtain ⟨hport, hissues, hagenda, htick⟩ := hm.around_eq
  refine ⟨hport, hissues, hagenda, htick, fun hclear => ?_, fun hb => ?_⟩
  · rcases hi with rfl | rfl | rfl | ⟨cmd, rfl⟩
    · cases h; rfl
    · rcases State.guarded_cases State.startCall s with ⟨-, hg⟩ | ⟨-, hg⟩ <;>
        simp only [exec, execCompute, hg] at h <;> cases h <;> rfl
    · exact absurd rfl (hclear rest)
    · cases h; rfl
  · rcases hi with rfl | rfl | rfl | ⟨cmd, rfl⟩
    · cases h; rfl
    · cases h.symm.trans (exec_guarded_busy (by trivial) hb); rfl
    · cases h.symm.trans (exec_guarded_busy (by trivial) hb); rfl
    · cases h; rfl

/-- Settles O53: every reply and every effect is a function of what the Host can see. -/
theorem hostLearnsNothingHidden : Obligations.HostLearnsNothingHidden := by
  unfold Obligations.HostLearnsNothingHidden
  intro i s u s' hi h hs
  obtain ⟨t, t', ht, ht', hreply, hsame⟩ := exec_lookAlike hi h
  cases hs.symm.trans ht
  exact ⟨t', ht', hreply, hsame⟩

end Sys2Proof.Proofs
end
